-- ==== Sys2Proof/Word.lean ====
section
/-! DEFINITION. The bit widths of the block: input bytes, symbol and command words, pulse durations. -/

namespace Sys2Proof

/-- One cell of the input buffer `IN`: 8 bits (20_memory.md R51, R59). -/
abbrev Byte := BitVec 8

/-- A symbol word, or a packed command word: 32 bits (30_encoding.md R80, R82; 20_memory.md R59). -/
abbrev Word := BitVec 32

/-- A duration field of a symbol word, in ticks: 15 bits, 0 to 32767 (30_encoding.md R80). -/
abbrev Duration := BitVec 15

end Sys2Proof
end

