-- ==== Sys2Proof/Config.lean ====
section
/-! DEFINITION. What an implementation fixes: the parameters of 00_scope.md R7, and the one free value of the model. -/

namespace Sys2Proof

/-- The parameters of 00_scope.md R7. None is state and none changes while the block exists.
The bounds on them (R8) are `Config.legal` in Machine/Rom.lean. -/
structure Config where
  /-- `TICK_NS`: the period of one peripheral timer tick, in ns. -/
  tickNs : Nat
  /-- `T0H_NS`: the width of the high part of the bit-0 symbol, in ns. -/
  t0hNs : Nat
  /-- `T0L_NS`: the width of the low part of the bit-0 symbol, in ns. -/
  t0lNs : Nat
  /-- `T1H_NS`: the width of the high part of the bit-1 symbol, in ns. -/
  t1hNs : Nat
  /-- `T1L_NS`: the width of the low part of the bit-1 symbol, in ns. -/
  t1lNs : Nat
  /-- `RST0_NS`: the width of the first (low) part of the reset symbol, in ns. -/
  rst0Ns : Nat
  /-- `RST1_NS`: the width of the second (low) part of the reset symbol, in ns. -/
  rst1Ns : Nat
  /-- `LEN_W`: the width in bits of the `len` input and of `BYTE_IDX`. -/
  lenW : Nat
  /-- `SPACE_W`: the width in bits of the `space` input and of the `n_syms` output. -/
  spaceW : Nat
  /-- `BITENC_OK`: strap, the Bit Encoder is present and initialised (10_state.md R27). -/
  bitencOk : Bool
  /-- `RSTENC_OK`: strap, the Reset/Latch Encoder is present and initialised (10_state.md R27). -/
  rstencOk : Bool
  /-- `HOLDOFF_NS`: idle time the host keeps between transmissions; no rule of the block reads it (R247). -/
  holdoffNs : Nat
deriving DecidableEq, Repr

/-- The reference configuration: the last column of the table of 00_scope.md R7 (assumption 2). -/
def Config.reference : Config where
  tickNs := 50
  t0hNs := 400
  t0lNs := 850
  t1hNs := 800
  t1lNs := 450
  rst0Ns := 50
  rst1Ns := 200000
  lenW := 8
  spaceW := 16
  bitencOk := true
  rstencOk := true
  holdoffNs := 0

/-- FREE VALUE. The byte at index `a` of `IN` where the host's buffer holds none, for the `k`-th sampling of `IN`:
93_implementation_defined.md U4 gives it any value (assumption 10). It has no body, so nothing can be proved of it. -/
opaque Config.freeByte (k a : Nat) : Byte

end Sys2Proof
end

