-- ==== Sys2Proof/Syntax.lean ====
section
/-! DEFINITION. The operations of the block, one constructor for each row of spec/opcode_table.json, and the
4-tuple form of a Symbol. -/

namespace Sys2Proof

/-- The operand ports every command presents (10_state.md R29, 30_encoding.md R82). `NOP` and `RESET` ignore them. -/
structure Operands where
  /-- `data_valid`: an input buffer is presented. -/
  dataValid : Bool
  /-- `len`: the number of bytes in the input buffer, `LEN`. -/
  len : Nat
  /-- `space`: the number of free symbol slots in the output buffer, `SPACE`. -/
  space : Nat
deriving DecidableEq, Repr

/-- A Symbol as the document's 4-tuple `(level0, duration0, level1, duration1)` (00_scope.md R12, 40_symbol_rom.md R110). -/
structure Symbol where
  level0 : Bool
  duration0 : Duration
  level1 : Bool
  duration1 : Duration
deriving DecidableEq, Repr

/-- The rows of spec/opcode_table.json. -/
inductive Instr where
  /-- `NOP`, `cmd = 00` (43_transmission_state_machine.md R166). -/
  | nop (p : Operands)
  /-- `ENCODE`, `cmd = 01` (R167). -/
  | encode (p : Operands)
  /-- `RESET`, `cmd = 10` (R176). -/
  | reset (p : Operands)
  /-- The reserved command, `cmd = 11` (30_encoding.md R89). -/
  | reservedCmd3 (p : Operands)
  /-- Micro-operation `BITENC(DATA, LEN, space)` (41_bit_encoder.md R131); `DATA` is the space `IN` of the state. -/
  | bitenc (len space : Nat)
  /-- Micro-operation `RSTENC(space)` (42_reset_latch_encoder.md R151). -/
  | rstenc (space : Nat)
  /-- The lookup `ROMREAD(a)` at a 2-bit ROM address (40_symbol_rom.md R116). -/
  | romread (addr : BitVec 2)
  /-- The symbol word `SYM0 = ROM[0] = S0` (30_encoding.md R88). -/
  | sym0
  /-- The symbol word `SYM1 = ROM[1] = S1` (30_encoding.md R88). -/
  | sym1
  /-- The symbol word `SYMR = ROM[2] = SR` (30_encoding.md R88). -/
  | symr
deriving DecidableEq, Repr

end Sys2Proof
end

