-- ==== Sys2Proof/Machine/State.lean ====
section
/-! DEFINITION. The state as plain data, the reasons a step can stop, and the state after reset. -/

namespace Sys2Proof.Machine

/-- `PHASE`, the 1-bit control register (10_state.md R21): `EMIT_DATA` is encoded 0, `EMIT_RESET` 1 (30_encoding.md R84). -/
inductive Phase where
  | emitData
  | emitReset
deriving DecidableEq, Repr

/-- The two flags of the `status` output (10_state.md R25); all four combinations can be written, so that the two
the block never produces are facts to prove (30_encoding.md R83, R89). -/
structure Status where
  complete : Bool
  memFull : Bool
deriving DecidableEq, Repr

/-- The three output ports as the last operation drove them (10_state.md R29; assumption 4). -/
structure Outputs where
  /-- `out[0 .. n_syms-1]`: the words this operation emitted, in order. -/
  out : List Word
  /-- `n_syms`: how many they are. -/
  nSyms : Nat
  /-- `status`. -/
  status : Status
deriving DecidableEq, Repr

/-- The block's internal wires as they were last driven (10_state.md R26, 40_symbol_rom.md R116): no operation reads
them from an earlier one (assumption 5). -/
structure Wires where
  /-- `consumed` of `BITENC`. -/
  consumed : Bool
  /-- `exhausted` of `BITENC`. -/
  bitExhausted : Bool
  /-- `done` of `RSTENC`. -/
  done : Bool
  /-- `exhausted` of `RSTENC`. -/
  rstExhausted : Bool
  /-- The word `ROMREAD` returns. -/
  romData : Word
deriving DecidableEq, Repr

/-- The address space `IN` (20_memory.md R51): cells at strictly rising byte indices; an unlisted index holds no
value of the host's (`Memory.read` in Machine/Ops.lean; assumption 10). -/
abbrev Memory := List Host.Cell

/-- A command as the host presents it: on the ports, or as the packed word of 30_encoding.md R82. -/
inductive Command where
  /-- The 32-bit packed command word. -/
  | word (w : Word)
  /-- The port values themselves. -/
  | ports (cmd : BitVec 2) (p : Operands)
deriving DecidableEq, Repr

/-- All the inputs of one operation, sampled once at its start (10_state.md R29). -/
structure HostOp where
  /-- The `hw_reset` input. -/
  hwReset : Bool
  /-- The command and its operand ports. -/
  command : Command
  /-- The host's input buffer, where the host changed it since the last operation; `none` leaves it as it is. -/
  data : Option (List Byte)
deriving DecidableEq, Repr

/-- The state: the two registers of 10_state.md R20; then, in the same record because a step has no other place for
them, the configuration (R7), the two address spaces that are not functions of it (`IN` and `OUT`), the output ports,
the internal wires and the host's operations still to come. -/
structure State where
  /-- `PHASE` (10_state.md R21). -/
  phase : Phase
  /-- `CURSOR` as one natural number (10_state.md R22); its fields are `State.byteIdx`, `State.bitIdx`. -/
  cursor : Nat
  /-- The configuration (00_scope.md R7), straps included (10_state.md R27); no step changes it (assumption 1). -/
  cfg : Config
  /-- The address space `IN`: the host's input buffer (20_memory.md R51). -/
  inMem : Memory
  /-- The address space `OUT`: every word appended so far, oldest first (20_memory.md R53, R62). -/
  outMem : List Word
  /-- The output ports. -/
  outputs : Outputs
  /-- The internal wires. -/
  wires : Wires
  /-- The operations the host issues next, in order (assumption 3). -/
  pending : List HostOp
  /-- THE MODEL'S OWN: how often `IN` has been sampled; the free value `Config.freeByte` is read at it (assumption 10). -/
  freeTick : Nat
deriving DecidableEq, Repr

/-- The block has no fault state and raises no exception: "The block raises no exception, takes no trap and has no
fault state" (60_exceptions.md R200). So there is no fault to name. -/
inductive Fault where
deriving DecidableEq, Repr

/-- Why a step has no meaning. -/
inductive Refusal where
  /-- Raised by `exec` for an instruction without a meaning. SAFE. -/
  | notModelled (mnemonic : String)
  /-- Raised by `RESERVED_CMD3`: `cmd = 11` is reserved and a model refuses it (30_encoding.md R89, U1). SAFE. -/
  | reservedCommand
  /-- Raised by `ROMREAD(3)`: the address is reserved and a model refuses it (40_symbol_rom.md R116, U10). SAFE. -/
  | reservedRomAddress
  /-- Raised by `step` on a packed word whose bits 7:3 are not zero (30_encoding.md R89). SAFE. -/
  | nonZeroPadding
  /-- Raised by `step` where an operand does not fit the port that would carry it (10_state.md R29). SAFE. -/
  | operandTooWide
  /-- Raised by every operation in a configuration outside the bounds (00_scope.md R8, U12). SAFE. -/
  | illegalConfiguration
  /-- Raised by `ENCODE` where a sub-encoder reported neither of its two flags (43_transmission_state_machine.md R175,
  U2); this block's sub-encoders never do. SAFE. -/
  | neitherFlag
deriving DecidableEq, Repr

/-- No flag: status 00 (30_encoding.md R83). -/
def Status.none : Status := ⟨false, false⟩

/-- Outputs that carry nothing: no word, count 0, status 00. -/
def Outputs.idle : Outputs := ⟨[], 0, Status.none⟩

/-- Wires nothing has driven yet: all 0 (DESIGN CHOICE: the spec gives a wire no reset value; assumption 5). -/
def Wires.idle : Wires := ⟨false, false, false, false, 0#32⟩

/-- The state after hardware reset (10_state.md R33): `IDLE`, nothing on the outputs. The configuration is the
reference one (assumption 2), the host has presented no buffer and issued no operation, `OUT` is empty. -/
def State.reset : State where
  phase := .emitData
  cursor := 0
  cfg := Config.reference
  inMem := []
  outMem := []
  outputs := Outputs.idle
  wires := Wires.idle
  pending := []
  freeTick := 0

end Sys2Proof.Machine
end

