-- ==== Sys2Proof/Machine/Flags.lean ====
section
/-! DEFINITION. The status flags and their encoding, the flags of the two sub-encoders, and the failure condition. -/

namespace Sys2Proof.Machine

/-- `COMPLETE`: status 01 (30_encoding.md R83). -/
def Status.completeOnly : Status := ⟨true, false⟩

/-- `MEM_FULL`: status 10 (30_encoding.md R83). -/
def Status.memFullOnly : Status := ⟨false, true⟩

/-- The 2-bit `status` output: bit 0 is `COMPLETE`, bit 1 is `MEM_FULL` (30_encoding.md R83). -/
def Status.bits (f : Status) : BitVec 2 := BitVec.ofBool f.memFull ++ BitVec.ofBool f.complete

/-- The encoding of `PHASE` (30_encoding.md R84). -/
def Phase.bit : Phase → BitVec 1
  | .emitData => 0#1
  | .emitReset => 1#1

/-- `consumed`: at exit every input bit has its symbol (41_bit_encoder.md R134). -/
def bitConsumed (len cursor : Nat) : Bool := decide (8 * len ≤ cursor)

/-- `exhausted` of `BITENC`: at exit a bit is still owed (41_bit_encoder.md R134). -/
def bitExhausted (len cursor : Nat) : Bool := decide (cursor < 8 * len)

/-- `done` of `RSTENC`: there was a free slot (42_reset_latch_encoder.md R151). -/
def rstDone (space : Nat) : Bool := decide (1 ≤ space)

/-- `exhausted` of `RSTENC`: there was none (42_reset_latch_encoder.md R151). -/
def rstExhausted (space : Nat) : Bool := decide (space = 0)

/-- `FAILURE(data_valid)`: `BITENC_OK = 0 or RSTENC_OK = 0 or data_valid = 0` (60_exceptions.md R201). -/
def encodeFails (cfg : Config) (dataValid : Bool) : Bool := !cfg.bitencOk || !cfg.rstencOk || !dataValid

end Sys2Proof.Machine
end

