-- ==== Sys2Proof/Machine/Rom.lean ====
section
/-! DEFINITION. The timing Symbol ROM as a function of the configuration: duration assembly, the bounds on a
configuration, the three Symbols, their words and their addresses. -/

namespace Sys2Proof

/-- Duration assembly `D(x) = floor(x / TICK_NS)` (30_encoding.md R86; assumption 12). -/
def Config.ticks (cfg : Config) (ns : Nat) : Nat := ns / cfg.tickNs

/-- The bounds a configuration of this block satisfies (00_scope.md R7's constraint column, R8). -/
def Config.legal (cfg : Config) : Bool :=
  decide (1 ≤ cfg.tickNs ∧ 2 ≤ cfg.lenW ∧ 1 ≤ cfg.spaceW) &&
  decide (1 ≤ cfg.ticks cfg.t0hNs ∧ cfg.ticks cfg.t0hNs ≤ 32767) &&
  decide (1 ≤ cfg.ticks cfg.t0lNs ∧ cfg.ticks cfg.t0lNs ≤ 32767) &&
  decide (1 ≤ cfg.ticks cfg.t1hNs ∧ cfg.ticks cfg.t1hNs ≤ 32767) &&
  decide (1 ≤ cfg.ticks cfg.t1lNs ∧ cfg.ticks cfg.t1lNs ≤ 32767) &&
  decide (cfg.ticks cfg.t0hNs < cfg.ticks cfg.t1hNs) &&
  decide (cfg.ticks cfg.rst0Ns ≤ 32767 ∧ cfg.ticks cfg.rst1Ns ≤ 32767) &&
  decide (1 ≤ cfg.ticks cfg.rst0Ns + cfg.ticks cfg.rst1Ns)

/-- A duration field holding `D(ns)`; in a legal configuration it fits its 15 bits (30_encoding.md R86). -/
def Config.duration (cfg : Config) (ns : Nat) : Duration := BitVec.ofNat 15 (cfg.ticks ns)

/-- Format S: `word = {level1, duration1[14:0], level0, duration0[14:0]}` (30_encoding.md R80). -/
def Symbol.toWord (y : Symbol) : Word :=
  (BitVec.ofBool y.level1 ++ y.duration1) ++ (BitVec.ofBool y.level0 ++ y.duration0)

/-- The Symbol a word of format S denotes (30_encoding.md R80). -/
def Symbol.ofWord (w : Word) : Symbol where
  level0 := w.getLsbD 15
  duration0 := w.extractLsb' 0 15
  level1 := w.getLsbD 31
  duration1 := w.extractLsb' 16 15

/-- The three entries of the Symbol ROM (40_symbol_rom.md R111). -/
inductive RomIndex where
  | s0
  | s1
  | sr
deriving DecidableEq, Repr

/-- The contents of the ROM as Symbols (40_symbol_rom.md R111). -/
def Config.romSymbol (cfg : Config) : RomIndex → Symbol
  | .s0 => ⟨true, cfg.duration cfg.t0hNs, false, cfg.duration cfg.t0lNs⟩
  | .s1 => ⟨true, cfg.duration cfg.t1hNs, false, cfg.duration cfg.t1lNs⟩
  | .sr => ⟨false, cfg.duration cfg.rst0Ns, false, cfg.duration cfg.rst1Ns⟩

/-- The contents of the ROM as words: `MemRead(ROM, a, 4)` for each entry (20_memory.md R52). -/
def Config.romWord (cfg : Config) (e : RomIndex) : Word := (cfg.romSymbol e).toWord

/-- The 2-bit address of an entry (20_memory.md R52). -/
def RomIndex.addr : RomIndex → BitVec 2
  | .s0 => 0#2
  | .s1 => 1#2
  | .sr => 2#2

/-- The entry at a 2-bit address; address 3 is reserved and has none (30_encoding.md R89). -/
def RomIndex.ofAddr (a : BitVec 2) : Option RomIndex :=
  if a = 0#2 then some .s0
  else if a = 1#2 then some .s1
  else if a = 2#2 then some .sr
  else none

/-- ROM address formation for a data bit: `addr = zext_2(b) = {0, b}` (30_encoding.md R85). -/
def romAddrOfBit (b : Bool) : BitVec 2 := (BitVec.ofBool b).setWidth 2

/-- The entry a data bit selects: `S0` for 0, `S1` for 1, the one at `romAddrOfBit b` (41_bit_encoder.md R132). -/
def RomIndex.ofBit : Bool → RomIndex
  | false => .s0
  | true => .s1

/-- The block's whole output alphabet (30_encoding.md R81, R88). -/
def Config.romWords (cfg : Config) : List Word := [cfg.romWord .s0, cfg.romWord .s1, cfg.romWord .sr]

end Sys2Proof
end

