-- ==== Sys2Proof/Machine/Operands.lean ====
section
/-! DEFINITION. Operand forms: the two fields of the cursor, a byte of `IN`, the input bit a cursor value points at. -/

namespace Sys2Proof.Machine

/-- The byte at an index of `IN`, where the host's buffer holds one (20_memory.md R51). -/
def Memory.read : Memory → Nat → Option Byte
  | [], _ => none
  | (k, b) :: m, a => if k = a then some b else Memory.read m a

/-- `BYTE_IDX`: the input byte holding the next bit (10_state.md R22). -/
def State.byteIdx (s : State) : Nat := s.cursor / 8

/-- `BIT_IDX`: the bits of that byte already encoded (10_state.md R22). -/
def State.bitIdx (s : State) : Nat := s.cursor % 8

/-- `MemRead(IN, a, 1)`, also `DATA[a]` (20_memory.md R51); beyond the host's buffer any value (U4, assumption 10). -/
def State.inByte (s : State) (a : Nat) : Byte := (s.inMem.read a).getD (Config.freeByte s.freeTick a)

/-- Input bit number `c`: `DATA[c div 8][7 - (c mod 8)]`, most significant bit first (20_memory.md R55, R56). -/
def State.inBit (s : State) (c : Nat) : Bool := (s.inByte (c / 8)).getLsbD (7 - c % 8)

/-- `ROM[bit(c)]`, the symbol word of input bit `c` (41_bit_encoder.md R132). -/
def State.bitWord (s : State) (c : Nat) : Word := s.cfg.romWord (RomIndex.ofBit (s.inBit c))

/-- The symbol words of the next `n` input bits, from the cursor on (41_bit_encoder.md R132). -/
def State.nextWords (s : State) (n : Nat) : List Word := (List.range n).map fun k => s.bitWord (s.cursor + k)

/-- The predicate `IDLE` (10_state.md R23). -/
def State.idle (s : State) : Bool := decide (s.phase = .emitData ∧ s.cursor = 0)

end Sys2Proof.Machine
end

