-- ==== Sys2Proof/Machine/Ops.lean ====
section
/-! DEFINITION. The named operations the meanings share: the three address spaces, the return of an operation, the
return to `IDLE`, and the failure path, which is what this block has in the place of taking an exception. -/

namespace Sys2Proof.Machine

/-- The canonical form of `IN`: strictly rising indices. An unlisted index holds no value, so no entry can equal what
an unlisted index reads as. -/
def Memory.wf (m : Memory) : Bool := decide (m.Pairwise fun x y => x.1 < y.1)

/-- The cells of a buffer that starts at index `k`. -/
def Memory.ofBytesFrom (k : Nat) : List Byte → Memory
  | [] => []
  | b :: bs => (k, b) :: Memory.ofBytesFrom (k + 1) bs

/-- The space `IN` when the host presents a buffer: `DATA[0]`, `DATA[1]`, … (20_memory.md R51). -/
def Memory.ofBytes (data : List Byte) : Memory := Memory.ofBytesFrom 0 data

/-- The host presents its input buffer. -/
def State.present (s : State) (data : List Byte) : State := { s with inMem := Memory.ofBytes data }

/-- `MemRead(ROM, a, 4)` on to the ROM's data wire (20_memory.md R52, 40_symbol_rom.md R116). -/
def State.readRom (s : State) (e : RomIndex) : State :=
  { s with wires := { s.wires with romData := s.cfg.romWord e } }

/-- `emit(w)`, that is `MemWrite(OUT, k, 4, w)`: `w` is appended whole to `OUT`, as this operation's `k`-th word
(20_memory.md R53, R60). -/
def State.emit (s : State) (w : Word) : State :=
  { s with
    outMem := s.outMem ++ [w]
    outputs := { s.outputs with out := s.outputs.out ++ [w], nSyms := s.outputs.nSyms + 1 } }

/-- `w <- ROMREAD(a); emit(w)` (41_bit_encoder.md R131, 42_reset_latch_encoder.md R151). -/
def State.emitRom (s : State) (e : RomIndex) : State := (s.readRom e).emit (s.cfg.romWord e)

/-- `out <- []`: an operation starts with nothing emitted (43_transmission_state_machine.md R167 line 3). -/
def State.clearOut (s : State) : State := { s with outputs := { s.outputs with out := [], nSyms := 0 } }

/-- `return (out, |out|, status)` with the words emitted so far. -/
def State.respond (s : State) (f : Status) : State := { s with outputs := { s.outputs with status := f } }

/-- `return ([], 0, status)`. -/
def State.returnNothing (s : State) (f : Status) : State := { s with outputs := ⟨[], 0, f⟩ }

/-- `PHASE <- EMIT_DATA ; CURSOR <- 0`, which is `IDLE` (10_state.md R23, R33). -/
def State.toIdle (s : State) : State := { s with phase := .emitData, cursor := 0 }

/-- The failure path: no word, `COMPLETE`, `PHASE` and `CURSOR` as they were (60_exceptions.md R201). The block takes
no exception (R200, R206): nothing is saved, there is no handler and no return from one. -/
def State.failurePath (s : State) : State := s.returnNothing Status.completeOnly

/-- Hardware reset (70_reset_and_hazards.md R230, R231): `PHASE` and `CURSOR` at their reset values, nothing on the
outputs; `OUT`, `IN` and the configuration are not touched. -/
def State.hwReset (s : State) : State := s.toIdle.returnNothing Status.none

/-- A configuration outside the bounds is not a configuration of this block, and a model refuses it (00_scope.md R8). -/
def requireLegal (s : State) (k : Host.Outcome State Fault Refusal) : Host.Outcome State Fault Refusal :=
  if s.cfg.legal then k else .refused .illegalConfiguration

end Sys2Proof.Machine
end

