-- ==== Sys2Proof/Machine/SymbolRom.lean ====
section
/-! DEFINITION. The ROM family: `ROMREAD` and the three symbol words. -/

namespace Sys2Proof.Machine

/-- `ROMREAD(a)` (40_symbol_rom.md R116): the word is returned, nothing is written; address 3 is reserved. -/
def execRomread (addr : BitVec 2) (s : State) : Host.Outcome State Fault Refusal :=
  requireLegal s <|
    match RomIndex.ofAddr addr with
    | some e => .next (s.readRom e)
    | none => .refused .reservedRomAddress

/-- `SYM0` (30_encoding.md R88): `S0` is emitted, one whole word appended to `OUT` (20_memory.md R60), so that its
waveform follows on the line (40_symbol_rom.md R117, R118; assumption 7). -/
def execSym0 (s : State) : Host.Outcome State Fault Refusal :=
  requireLegal s <| .next (s.emit (s.cfg.romWord .s0))

/-- `SYM1` (30_encoding.md R88): `S1` is emitted, as `SYM0` is. -/
def execSym1 (s : State) : Host.Outcome State Fault Refusal :=
  requireLegal s <| .next (s.emit (s.cfg.romWord .s1))

/-- `SYMR` (30_encoding.md R88): `SR` is emitted, as `SYM0` is. -/
def execSymr (s : State) : Host.Outcome State Fault Refusal :=
  requireLegal s <| .next (s.emit (s.cfg.romWord .sr))

end Sys2Proof.Machine
end

