-- ==== Sys2Proof/Machine/BitEncoder.lean ====
section
/-! DEFINITION. The Bit Encoder, `BITENC`. -/

namespace Sys2Proof.Machine

/-- One turn of the loop of 41_bit_encoder.md R131: the symbol of the bit at the cursor is emitted whole and the
cursor moves by one. -/
def State.emitBit (s : State) : State :=
  { s.emitRom (RomIndex.ofBit (s.inBit s.cursor)) with cursor := s.cursor + 1 }

/-- `while c < 8*LEN and space > 0` (41_bit_encoder.md R131). -/
def bitencLoop (len : Nat) : Nat → State → State
  | 0, s => s
  | space + 1, s => if s.cursor < 8 * len then bitencLoop len space s.emitBit else s

/-- `BITENC(DATA, LEN, space)` (41_bit_encoder.md R131): the loop, then the two flags. `IN` has been sampled once. -/
def bitenc (len space : Nat) (s : State) : State :=
  let t := bitencLoop len space s
  { t with
    wires := { t.wires with
      consumed := bitConsumed len t.cursor
      bitExhausted := bitExhausted len t.cursor }
    freeTick := s.freeTick + 1 }

/-- `BITENC` as an operation of its own. -/
def execBitenc (len space : Nat) (s : State) : Host.Outcome State Fault Refusal :=
  requireLegal s <| .next (bitenc len space s)

end Sys2Proof.Machine
end

