-- ==== Sys2Proof/Machine/ResetEncoder.lean ====
section
/-! DEFINITION. The Reset/Latch Encoder, `RSTENC`. -/

namespace Sys2Proof.Machine

/-- `RSTENC(space)` (42_reset_latch_encoder.md R151): `SR` is emitted whole if there is a slot, else nothing. -/
def rstenc (space : Nat) (s : State) : State :=
  let t := if 1 ≤ space then s.emitRom .sr else s
  { t with wires := { t.wires with done := rstDone space, rstExhausted := rstExhausted space } }

/-- `RSTENC` as an operation of its own. -/
def execRstenc (space : Nat) (s : State) : Host.Outcome State Fault Refusal :=
  requireLegal s <| .next (rstenc space s)

end Sys2Proof.Machine
end

