-- ==== Sys2Proof/Machine/Transmission.lean ====
section
/-! DEFINITION. The Transmission State Machine: the commands `NOP`, `ENCODE`, `RESET` and the reserved one. -/

namespace Sys2Proof.Machine

/-- Lines 11 to 18 of 43_transmission_state_machine.md R167, the phase `EMIT_RESET` with `space` slots left. -/
def resetPhase (space : Nat) (s : State) : Host.Outcome State Fault Refusal :=
  let t := rstenc space s
  if t.wires.done then .next (t.toIdle.respond Status.completeOnly)
  else if t.wires.rstExhausted then .next (t.respond Status.memFullOnly)
  else .refused .neitherFlag

/-- Lines 7 to 10 of R167, after `BITENC`: `exhausted` is tested before `consumed` (R171), and neither is refused (R175). -/
def afterBitenc (space : Nat) (s : State) : Host.Outcome State Fault Refusal :=
  if s.wires.bitExhausted then .next (s.respond Status.memFullOnly)
  else if s.wires.consumed then resetPhase space { s with phase := .emitReset }
  else .refused .neitherFlag

/-- Lines 4 to 6 of R167, the phase `EMIT_DATA`: `BITENC` gets the whole capacity, and what it used is taken off (R169). -/
def dataPhase (len space : Nat) (s : State) : Host.Outcome State Fault Refusal :=
  let t := bitenc len space s
  afterBitenc (space - t.outputs.nSyms) t

/-- `ENCODE(data_valid, DATA, LEN, SPACE)` (43_transmission_state_machine.md R167): the failure check comes first, in
every phase (R168). -/
def execEncode (p : Operands) (s : State) : Host.Outcome State Fault Refusal :=
  requireLegal s <|
    if encodeFails s.cfg p.dataValid then .next s.failurePath
    else
      match s.phase with
      | .emitData => dataPhase p.len p.space s.clearOut
      | .emitReset => resetPhase p.space s.clearOut

/-- `NOP` (43_transmission_state_machine.md R166): no state is written, both flags are driven to 0. -/
def execNop (_p : Operands) (s : State) : Host.Outcome State Fault Refusal :=
  requireLegal s <| .next (s.returnNothing Status.none)

/-- `RESET` (43_transmission_state_machine.md R176): unconditionally to `IDLE`, nothing emitted, both flags 0. -/
def execReset (_p : Operands) (s : State) : Host.Outcome State Fault Refusal :=
  requireLegal s <| .next (s.toIdle.returnNothing Status.none)

/-- `cmd = 11` is reserved: "a model refuses it (gives it no meaning)" (30_encoding.md R89). -/
def execReservedCmd3 (_p : Operands) (_s : State) : Host.Outcome State Fault Refusal :=
  .refused .reservedCommand

end Sys2Proof.Machine
end

