-- ==== Sys2Proof/Machine/Dispatch.lean ====
section
/-! DEFINITION. One arm for each row of spec/opcode_table.json. -/

namespace Sys2Proof.Machine

/-- The meaning of an instruction. -/
def exec (i : Instr) (s : State) : Host.Outcome State Fault Refusal :=
  match i with
  | .nop p => Sys2Proof.Machine.execNop p s
  | .encode p => Sys2Proof.Machine.execEncode p s
  | .reset p => Sys2Proof.Machine.execReset p s
  | .reservedCmd3 p => Sys2Proof.Machine.execReservedCmd3 p s
  | .bitenc len space => Sys2Proof.Machine.execBitenc len space s
  | .rstenc space => Sys2Proof.Machine.execRstenc space s
  | .romread addr => Sys2Proof.Machine.execRomread addr s
  | .sym0 => Sys2Proof.Machine.execSym0 s
  | .sym1 => Sys2Proof.Machine.execSym1 s
  | .symr => Sys2Proof.Machine.execSymr s

end Sys2Proof.Machine
end

