-- ==== Sys2Proof/WellFormed.lean ====
section
/-! DEFINITION. Which operations a configuration's ports can present. -/

namespace Sys2Proof

/-- A value of the `len` port has `LEN_W` bits (10_state.md R29). -/
def Config.fitsLen (cfg : Config) (len : Nat) : Bool := decide (len < 2 ^ cfg.lenW)

/-- A value of the `space` port has `SPACE_W` bits (10_state.md R29). -/
def Config.fitsSpace (cfg : Config) (space : Nat) : Bool := decide (space < 2 ^ cfg.spaceW)

/-- Every operand fits the port that carries it, and a ROM address is one of 0, 1, 2 (20_memory.md R52). -/
def Instr.wellFormed (cfg : Config) : Instr → Bool
  | .nop p => cfg.fitsLen p.len && cfg.fitsSpace p.space
  | .encode p => cfg.fitsLen p.len && cfg.fitsSpace p.space
  | .reset p => cfg.fitsLen p.len && cfg.fitsSpace p.space
  | .reservedCmd3 p => cfg.fitsLen p.len && cfg.fitsSpace p.space
  | .bitenc len space => cfg.fitsLen len && cfg.fitsSpace space
  | .rstenc space => cfg.fitsSpace space
  | .romread addr => decide (addr ≠ 3#2)
  | .sym0 => true
  | .sym1 => true
  | .symr => true

end Sys2Proof
end

