-- ==== Sys2Proof/Decode.lean ====
section
/-! DEFINITION. Decoding a command presented at the ports or as a packed word, and reading a symbol word back to its
name; then the encoder, from the same tables (30_encoding.md R80, R82, R88; spec/opcode_table.json). -/

namespace Sys2Proof

/-- Why a word at the command port has no instruction. -/
inductive DecodeError where
  /-- Bits 7:3 of a packed command word are not zero (30_encoding.md R89). -/
  | nonZeroPadding
deriving DecidableEq, Repr

/-- Why a word on `out` or in the ROM has no name. -/
inductive SymbolError where
  /-- It is none of `S0`, `S1`, `SR` of the configuration (30_encoding.md R81). -/
  | notARomSymbol
deriving DecidableEq, Repr

/-- The operation the 2-bit `cmd` port selects, with its operands (30_encoding.md R82, R87). -/
def decodePorts (cmd : BitVec 2) (p : Operands) : Instr :=
  if cmd = 0#2 then .nop p
  else if cmd = 1#2 then .encode p
  else if cmd = 2#2 then .reset p
  else .reservedCmd3 p

/-- The operand ports packed into a command word: `data_valid` 2, `len` 15:8, `space` 31:16 (30_encoding.md R82). -/
def unpackOperands (w : Word) : Operands where
  dataValid := w.getLsbD 2
  len := (w.extractLsb' 8 8).toNat
  space := (w.extractLsb' 16 16).toNat

/-- The decoder of packed command words, format C (30_encoding.md R82): a non-zero padding field is refused (R89). -/
def decodeWord (w : Word) : Except DecodeError Instr :=
  if w.extractLsb' 3 5 = 0#5 then .ok (decodePorts (w.extractLsb' 0 2) (unpackOperands w))
  else .error .nonZeroPadding

/-- The name of a symbol word of format S in a configuration (30_encoding.md R88): `SYM0` and `SYM1` share match and
mask and are told apart by the configured durations. -/
def decodeSymbol (cfg : Config) (w : Word) : Except SymbolError Instr :=
  if w = cfg.romWord .s0 then .ok .sym0
  else if w = cfg.romWord .s1 then .ok .sym1
  else if w = cfg.romWord .sr then .ok .symr
  else .error .notARomSymbol

/-- The packed command word of `cmd` and operands that fit 8 and 16 bits (30_encoding.md R82). -/
def packCommand (cmd : BitVec 2) (p : Operands) : Word :=
  BitVec.ofNat 16 p.space ++ (BitVec.ofNat 8 p.len ++ (0#5 ++ (BitVec.ofBool p.dataValid ++ cmd)))

/-- Operands a packed word can carry: `LEN_W = 8`, `SPACE_W = 16` (30_encoding.md R82). -/
def Operands.fitsWord (p : Operands) : Bool := decide (p.len < 256 ∧ p.space < 65536)

/-- The word of an instruction: format C for the four `cmd` values, format S for the three symbol words; the
micro-operations have no encoding (30_encoding.md R87). -/
def encode (cfg : Config) : Instr → Option Word
  | .nop p => if p.fitsWord then some (packCommand 0#2 p) else none
  | .encode p => if p.fitsWord then some (packCommand 1#2 p) else none
  | .reset p => if p.fitsWord then some (packCommand 2#2 p) else none
  | .reservedCmd3 p => if p.fitsWord then some (packCommand 3#2 p) else none
  | .bitenc _ _ => none
  | .rstenc _ => none
  | .romread _ => none
  | .sym0 => some (cfg.romWord .s0)
  | .sym1 => some (cfg.romWord .s1)
  | .symr => some (cfg.romWord .sr)

/-- An instruction whose words are read at the command port (format C), not on `out` or in the ROM (format S). -/
def Instr.isCommand : Instr → Bool
  | .nop _ | .encode _ | .reset _ | .reservedCmd3 _ => true
  | .bitenc _ _ | .rstenc _ | .romread _ | .sym0 | .sym1 | .symr => false

/-- Mask and match of an instruction's row of spec/opcode_table.json; a micro-operation has neither. -/
def Instr.maskMatch : Instr → Option (Word × Word)
  | .nop _ => some (0x00000003#32, 0x00000000#32)
  | .encode _ => some (0x00000003#32, 0x00000001#32)
  | .reset _ => some (0x00000003#32, 0x00000002#32)
  | .reservedCmd3 _ => some (0x00000003#32, 0x00000003#32)
  | .bitenc _ _ => none
  | .rstenc _ => none
  | .romread _ => none
  | .sym0 => some (0x80008000#32, 0x00008000#32)
  | .sym1 => some (0x80008000#32, 0x00008000#32)
  | .symr => some (0x80008000#32, 0x00000000#32)

/-- The low `nbits` bits of `w`, as one 32-bit word: every bit above `nbits` is 0. -/
def tableWord (nbits w : Nat) : Word := BitVec.ofNat 32 (w % 2 ^ nbits)

/-- The instruction the command port's decoder reads from a table row's word (assumption 8: a symbol word is data and
is not read at this port). -/
def decodeTableWord (nbits w : Nat) : Option Instr :=
  match decodeWord (tableWord nbits w) with
  | .ok i => some i
  | .error _ => none

end Sys2Proof
end

