-- ==== Sys2Proof/Machine/Fetch.lean ====
section
/-! DEFINITION. What a step takes from the host: the inputs of one operation, sampled once at its start. -/

namespace Sys2Proof.Machine

/-- The operation of a step in which the host commands nothing (43_transmission_state_machine.md R166, D4). -/
def noCommand : Instr := .nop ⟨false, 0, 0⟩

/-- The operation a presented command selects (30_encoding.md R82). -/
def Command.decode : Command → Except DecodeError Instr
  | .word w => decodeWord w
  | .ports cmd p => .ok (decodePorts cmd p)

/-- The refusal of a word without an instruction. -/
def refusalOf : DecodeError → Refusal
  | .nonZeroPadding => .nonZeroPadding

/-- Taking one operation off the host's list: its buffer, where the host changed it, is what `IN` now holds. -/
def State.sample (s : State) (op : HostOp) (rest : List HostOp) : State :=
  match op.data with
  | some d => { s.present d with pending := rest }
  | none => { s with pending := rest }

/-- The operation the host presents next, put before the ones still to come; its inputs are the packed word and the
buffer already presented. -/
def State.presentWord (s : State) (w : Word) : State :=
  { s with pending := ⟨false, .word w, none⟩ :: s.pending }

end Sys2Proof.Machine
end

