-- ==== Sys2Proof/Machine/Step.lean ====
section
/-! DEFINITION. One step: one operation of the host's (00_scope.md R6, 43_transmission_state_machine.md R165). -/

namespace Sys2Proof.Machine

/-- A sampled command: refused by name where its word has no instruction or an operand does not fit its port. -/
def runCommand (c : Command) (s : State) : Host.Outcome State Fault Refusal :=
  match c.decode with
  | .error e => .refused (refusalOf e)
  | .ok i => if i.wellFormed s.cfg then exec i s else .refused .operandTooWide

/-- One sampled operation: `hw_reset` overrides any command presented with it (60_exceptions.md R205). -/
def runOp (op : HostOp) (s : State) : Host.Outcome State Fault Refusal :=
  if op.hwReset then requireLegal s (.next s.hwReset) else runCommand op.command s

/-- One step. Where the host has issued nothing it is a `NOP` (43_transmission_state_machine.md R166, assumption 3). -/
def step (s : State) : Host.Outcome State Fault Refusal :=
  match s.pending with
  | [] => exec noCommand s
  | op :: rest => runOp op (s.sample op rest)

/-- `s` with the packed command word presented as the next operation: the bits of `w` above `nbits` are 0. -/
def State.withFetchWord (s : State) (nbits w : Nat) : State := s.presentWord (tableWord nbits w)

end Sys2Proof.Machine
end

