-- ==== Sys2Proof/Machine/HostLoop.lean ====
section
/-! DEFINITION. The host's loop over one transmission (30_encoding.md R91, 60_exceptions.md R210): the pseudo-operation
`TRANSMIT`, with `NOP`s allowed between its `ENCODE`s. The block itself sees only its commands. -/

namespace Sys2Proof.Machine

/-- The `ENCODE` a transmission of `len` bytes issues with `space` free slots (30_encoding.md R90). -/
def encodeOperands (len space : Nat) : Operands := ⟨true, len, space⟩

/-- `TRANSMIT`: for each move of the host, `some space` an `ENCODE` with that capacity and `none` a `NOP`; it ends at
the first `ENCODE` that does not report `MEM_FULL`, or with the host's moves (30_encoding.md R91). -/
def transmit (len : Nat) : List (Option Nat) → State → Host.Outcome State Fault Refusal
  | [], s => .next s
  | none :: moves, s =>
    match execNop ⟨false, 0, 0⟩ s with
    | .next t => transmit len moves t
    | .fault r => .fault r
    | .refused r => .refused r
  | some space :: moves, s =>
    match execEncode (encodeOperands len space) s with
    | .next t => if t.outputs.status.memFull then transmit len moves t else .next t
    | .fault r => .fault r
    | .refused r => .refused r

/-- The capacity the host's moves offer in all. -/
def capacity (moves : List (Option Nat)) : Nat := (moves.map fun m => m.getD 0).sum

end Sys2Proof.Machine
end

