-- ==== Sys2Proof/Machine/Waveform.lean ====
section
/-! DEFINITION. What the emitted words mean: the waveform of a Symbol and of a stream, the frame a whole
transmission consists of, and time. -/

namespace Sys2Proof

/-- The waveform of a Symbol: `wave(s) = [l0] * d0 ++ [l1] * d1`, one line level per tick (40_symbol_rom.md R117;
assumptions 13 and 14). -/
def Symbol.wave (y : Symbol) : List Bool :=
  List.replicate y.duration0.toNat y.level0 ++ List.replicate y.duration1.toNat y.level1

/-- How many ticks a Symbol lasts: `d0 + d1` (40_symbol_rom.md R117). -/
def Symbol.length (y : Symbol) : Nat := y.duration0.toNat + y.duration1.toNat

/-- The waveform of a sequence of symbol words: their waveforms, in order, with no gap (40_symbol_rom.md R118). -/
def wave (ws : List Word) : List Bool := ws.flatMap fun w => (Symbol.ofWord w).wave

/-- The level of the idle line, before the first symbol of a transmission and after its last one: low
(40_symbol_rom.md R119; assumption 15). -/
def idleLevel : Bool := false

/-- Symbols played with no gap between them, after a time in which the line is idle: the host and the peripheral decide
when a transmission begins (40_symbol_rom.md R119, 70_reset_and_hazards.md R247; assumption 22). -/
structure Stretch where
  /-- For how many ticks the line is idle before the first symbol. -/
  idle : Nat
  /-- The symbol words. -/
  words : List Word
deriving DecidableEq, Repr

/-- The line during a stretch: idle, then the waveform of its words (40_symbol_rom.md R118, R119). -/
def Stretch.line (f : Stretch) : List Bool := List.replicate f.idle idleLevel ++ wave f.words

/-- The line during stretches that follow one another. -/
def line (fs : List Stretch) : List Bool := fs.flatMap Stretch.line

/-- The line level at tick `t`, counted from the start of the first stretch: the line is idle before it and after the
last one (40_symbol_rom.md R119). -/
def lineLevel (fs : List Stretch) (t : Int) : Bool :=
  if 0 ≤ t then ((line fs)[t.toNat]?).getD idleLevel else idleLevel

/-- A duration of `d` ticks lasts `d * TICK_NS` nanoseconds (40_symbol_rom.md R121). -/
def Config.nanoseconds (cfg : Config) (d : Nat) : Nat := d * cfg.tickNs

/-- `bit(c) = DATA[c div 8][7 - (c mod 8)]` of a buffer (43_transmission_state_machine.md R180). -/
def bufferBit (data : List Byte) (c : Nat) : Bool := (data.getD (c / 8) 0#8).getLsbD (7 - c % 8)

/-- The words of one whole transmission: `[ROM[bit(0)], …, ROM[bit(8*LEN - 1)], SR]` (R180). -/
def Config.frame (cfg : Config) (data : List Byte) : List Word :=
  ((List.range (8 * data.length)).map fun c => cfg.romWord (RomIndex.ofBit (bufferBit data c))) ++ [cfg.romWord .sr]

/-- A pixel's bytes in wire order: green, red, blue (20_memory.md R57, 30_encoding.md R91). -/
def pixelBytes (r g b : Byte) : List Byte := [g, r, b]

/-- The dark frame's bytes, `PIXEL 0 0 0` (30_encoding.md R91, 70_reset_and_hazards.md R234). -/
def darkBytes : List Byte := pixelBytes 0#8 0#8 0#8

end Sys2Proof

namespace Sys2Proof.Machine

/-- The waveform of everything on `OUT`, with no gap anywhere (40_symbol_rom.md R118). -/
def State.waveform (s : State) : List Bool := wave s.outMem

/-- The words on `OUT` are played as these stretches: in order, each once (20_memory.md R62, R65), whatever idle time
lies before each stretch. -/
def State.playedAs (s : State) (fs : List Stretch) : Prop := s.outMem = fs.flatMap Stretch.words

end Sys2Proof.Machine
end

