-- ==== Sys2Proof/Safety.lean ====
section
/-! DEFINITION. What holds of every state between operations. -/

namespace Sys2Proof.Machine

/-- The invariant of the block between operations, whatever the host does. -/
structure Inv (s : State) : Prop where
  /-- The configuration is one of this block (00_scope.md R8). -/
  legal : s.cfg.legal = true
  /-- `IN` keeps its canonical form. -/
  inMem_wf : s.inMem.wf = true
  /-- The cursor fits `LEN_W + 3` bits: it never exceeds `8 * (2^LEN_W - 1)` (10_state.md R24). -/
  cursor_le : s.cursor ≤ 8 * (2 ^ s.cfg.lenW - 1)
  /-- `n_syms` is the number of words on `out` (43_transmission_state_machine.md R167). -/
  nSyms_eq : s.outputs.nSyms = s.outputs.out.length
  /-- `n_syms` fits its `SPACE_W` bits (10_state.md R29). -/
  nSyms_lt : s.outputs.nSyms < 2 ^ s.cfg.spaceW
  /-- The words on `out` are the last ones appended to `OUT` (20_memory.md R53). -/
  out_suffix : s.outputs.out <:+ s.outMem
  /-- Every word ever emitted is one of the ROM's (30_encoding.md R81). -/
  alphabet : ∀ w ∈ s.outMem, w ∈ s.cfg.romWords
  /-- Status 11 is never produced (30_encoding.md R83, R89). -/
  status_ne : ¬ (s.outputs.status.complete = true ∧ s.outputs.status.memFull = true)

/-- The invariant of a transmission whose length the host holds constant (10_state.md R32). -/
def PositionInv (len : Nat) (s : State) : Prop :=
  (s.phase = .emitData → s.cursor < 8 * len ∨ s.cursor = 0) ∧
  (s.phase = .emitReset → s.cursor = 8 * len)

/-- Both sub-encoders are present and the configuration is one of this block (70_reset_and_hazards.md R233). -/
def State.ready (s : State) : Bool := s.cfg.legal && s.cfg.bitencOk && s.cfg.rstencOk

end Sys2Proof.Machine
end

