-- ==== Sys2Proof/Certificates/Slice0/Obligations.lean ====
section
/-! DEFINITION. The statements for the provers. Each docstring names the rule of spec/ it formalises. In all of them
`s.ready = true` says that the configuration is legal and both straps are 1, so that with `data_valid = 1` an `ENCODE`
takes no failure path (60_exceptions.md R201). -/

open Sys2Proof Sys2Proof.Machine

/-! ### Reset, `NOP`, `RESET`, the reserved command -/

/-- 10_state.md R33: after hardware reset and after `RESET` the block is `IDLE`; ROM and straps are not reset; the
outputs carry nothing until the first `ENCODE`. -/
def Obligations.ResetStateIsIdle : Prop :=
  (∀ t : State, (t = State.reset ∨ (∃ s : State, t = s.hwReset) ∨ ∃ p s, exec (.reset p) s = .next t) →
    t.phase = .emitData ∧ t.phase.bit = 0#1 ∧ t.cursor = 0 ∧ t.byteIdx = 0 ∧ t.bitIdx = 0 ∧ t.idle = true ∧
    t.outputs = ⟨[], 0, ⟨false, false⟩⟩) ∧
  (∀ s : State, s.hwReset.cfg = s.cfg) ∧
  ∀ p s t, exec (.reset p) s = .next t → t.cfg = s.cfg

/-- 70_reset_and_hazards.md R230: `hw_reset` sets the state to the reset values whatever it was, overrides any command
presented with it, emits nothing and drives `status = 00`, `n_syms = 0`. The model's choices are that the operation
leaves the host's list (assumption 3), that the buffer presented with it is what `IN` then holds and that the wires
stay (assumption 17), and that an illegal configuration is refused (assumption 11). -/
def Obligations.HwResetOverridesCommand : Prop :=
  ∀ (s : State) (op : HostOp) (rest : List HostOp), s.cfg.legal = true → s.pending = op :: rest → op.hwReset = true →
    step s = .next { s with
      phase := .emitData
      cursor := 0
      outputs := ⟨[], 0, ⟨false, false⟩⟩
      pending := rest
      inMem := (op.data.map Memory.ofBytes).getD s.inMem }

/-- 43_transmission_state_machine.md R166: `NOP` ignores its ports, writes no state and drives both flags to 0. That
the internal wires stay too is the model's reading (assumption 19). `NOP` itself is the spec's decision D4, and that
an illegal configuration runs nothing is assumption 11. -/
def Obligations.NopWritesNoState : Prop :=
  ∀ (p : Operands) (s : State), s.cfg.legal = true →
    exec (.nop p) s = .next { s with outputs := ⟨[], 0, ⟨false, false⟩⟩ }

/-- 43_transmission_state_machine.md R176: `RESET` returns to `IDLE` from every state, whatever the other ports and
the straps are, emits nothing and drives both flags to 0; everything else stays. That the internal wires stay too is
the model's reading (assumption 19). That it does not depend on the straps is the spec's decision D23, and that an
illegal configuration runs nothing is assumption 11. -/
def Obligations.ResetCommandReturnsToIdle : Prop :=
  ∀ (p : Operands) (s : State), s.cfg.legal = true →
    exec (.reset p) s = .next { s with phase := .emitData, cursor := 0, outputs := ⟨[], 0, ⟨false, false⟩⟩ }

/-- 30_encoding.md R89, first row: a model refuses `cmd = 11`. -/
def Obligations.ReservedCommandIsRefused : Prop :=
  (∀ (p : Operands) (s : State), exec (.reservedCmd3 p) s = .refused .reservedCommand) ∧
  ∀ p : Operands, decodePorts 3#2 p = .reservedCmd3 p

/-! ### `ENCODE` -/

/-- 60_exceptions.md R201: where a strap is 0 or no input is presented, `ENCODE` emits nothing, reports `COMPLETE`
with `n_syms = 0` and changes neither register; no successful `COMPLETE` has `n_syms = 0`. The spec marks the last
clause of R201 as derived from R178. That the internal wires stay on the failure path is the model's reading
(assumption 19). -/
def Obligations.EncodeFailureIsSilentNoop : Prop :=
  ∀ (p : Operands) (s : State), s.cfg.legal = true →
    ((s.cfg.bitencOk = false ∨ s.cfg.rstencOk = false ∨ p.dataValid = false) →
      exec (.encode p) s = .next { s with outputs := ⟨[], 0, ⟨true, false⟩⟩ }) ∧
    (¬ (s.cfg.bitencOk = false ∨ s.cfg.rstencOk = false ∨ p.dataValid = false) →
      ∃ t, exec (.encode p) s = .next t ∧ (t.outputs.status.complete = true → 1 ≤ t.outputs.nSyms))

/-- 43_transmission_state_machine.md R182: the whole of `ENCODE` as a table, with the failure row, `RESET` and `NOP`.
The spec marks R182 as derived from R166, R167 and R176. -/
def Obligations.EncodeTransitionTable : Prop :=
  ∀ (p : Operands) (s : State), s.cfg.legal = true →
    (s.ready = true → p.dataValid = true → s.phase = .emitData → s.cursor ≤ 8 * p.len →
      ∃ t, exec (.encode p) s = .next t ∧ t.outMem = s.outMem ++ t.outputs.out ∧
        t.outputs.nSyms = t.outputs.out.length ∧
        (p.space < 8 * p.len - s.cursor →
          t.outputs.out = s.nextWords p.space ∧ t.phase = .emitData ∧ t.cursor = s.cursor + p.space ∧
          t.outputs.status = ⟨false, true⟩) ∧
        (p.space = 8 * p.len - s.cursor →
          t.outputs.out = s.nextWords (8 * p.len - s.cursor) ∧ t.phase = .emitReset ∧ t.cursor = 8 * p.len ∧
          t.outputs.status = ⟨false, true⟩) ∧
        (8 * p.len - s.cursor < p.space →
          t.outputs.out = s.nextWords (8 * p.len - s.cursor) ++ [s.cfg.romWord .sr] ∧ t.phase = .emitData ∧
          t.cursor = 0 ∧ t.outputs.status = ⟨true, false⟩)) ∧
    (s.ready = true → p.dataValid = true → s.phase = .emitReset →
      ∃ t, exec (.encode p) s = .next t ∧ t.outMem = s.outMem ++ t.outputs.out ∧
        t.outputs.nSyms = t.outputs.out.length ∧
        (p.space = 0 → t.outputs.out = [] ∧ t.phase = .emitReset ∧ t.cursor = s.cursor ∧
          t.outputs.status = ⟨false, true⟩) ∧
        (1 ≤ p.space → t.outputs.out = [s.cfg.romWord .sr] ∧ t.phase = .emitData ∧ t.cursor = 0 ∧
          t.outputs.status = ⟨true, false⟩)) ∧
    ((s.ready = false ∨ p.dataValid = false) →
      ∃ t, exec (.encode p) s = .next t ∧ t.outMem = s.outMem ∧ t.phase = s.phase ∧ t.cursor = s.cursor ∧
        t.outputs = ⟨[], 0, ⟨true, false⟩⟩) ∧
    (∃ t, exec (.reset p) s = .next t ∧ t.outMem = s.outMem ∧ t.phase = .emitData ∧ t.cursor = 0 ∧
      t.outputs = ⟨[], 0, ⟨false, false⟩⟩) ∧
    (∃ t, exec (.nop p) s = .next t ∧ t.outMem = s.outMem ∧ t.phase = s.phase ∧ t.cursor = s.cursor ∧
      t.outputs = ⟨[], 0, ⟨false, false⟩⟩)

/-- 43_transmission_state_machine.md R177: `n_syms ≤ SPACE`, with equality where the status is `MEM_FULL`; with `SPACE
= 0` and no failure nothing is emitted and no state changes, but for the move to `EMIT_RESET` at `8*LEN`. The spec
marks R177 as derived from R167. -/
def Obligations.EncodeStaysWithinSpace : Prop :=
  ∀ (p : Operands) (s : State), s.cfg.legal = true →
    ∃ t, exec (.encode p) s = .next t ∧ t.outputs.nSyms ≤ p.space ∧
      (t.outputs.status.memFull = true → t.outputs.nSyms = p.space) ∧
      (s.ready = true → p.dataValid = true → p.space = 0 →
        t.outputs.nSyms = 0 ∧ t.outputs.status = ⟨false, true⟩ ∧ t.outMem = s.outMem ∧ t.cursor = s.cursor ∧
        (s.phase = .emitReset → t.phase = .emitReset) ∧
        (s.phase = .emitData → s.cursor < 8 * p.len → t.phase = .emitData) ∧
        (s.phase = .emitData → s.cursor = 8 * p.len → t.phase = .emitReset))

/-- 43_transmission_state_machine.md R178: exactly one of the two flags; a non-failing `ENCODE` reports `COMPLETE`
exactly when it emitted `SR`, and then `SR` is the last word of `out`. The spec marks R178 as derived from R167 and
R175. -/
def Obligations.EncodeReportsExactlyOneFlag : Prop :=
  ∀ (p : Operands) (s : State), s.cfg.legal = true →
    ∃ t, exec (.encode p) s = .next t ∧
      (t.outputs.status = ⟨true, false⟩ ∨ t.outputs.status = ⟨false, true⟩) ∧
      (s.ready = true → p.dataValid = true →
        (t.outputs.status.complete = true ↔ s.cfg.romWord .sr ∈ t.outputs.out) ∧
        (t.outputs.status.complete = true → t.outputs.out.getLast? = some (s.cfg.romWord .sr)))

/-- 43_transmission_state_machine.md R179: with `SPACE ≥ 1` a non-failing `ENCODE` emits at least one symbol, so
`8*LEN + 1` of them complete a transmission; with `SPACE = 0` for ever every one reports `MEM_FULL`. The spec marks
R179 as derived from R167 and R177. -/
def Obligations.EncodeMakesProgress : Prop :=
  (∀ (p : Operands) (s : State), s.ready = true → p.dataValid = true → 1 ≤ p.space →
    ∃ t, exec (.encode p) s = .next t ∧ 1 ≤ t.outputs.nSyms) ∧
  (∀ (len : Nat) (spaces : List Nat) (s : State), s.ready = true → s.idle = true → (∀ n ∈ spaces, 1 ≤ n) →
    8 * len + 1 ≤ spaces.length →
    ∃ t, transmit len (spaces.map some) s = .next t ∧ t.idle = true ∧ t.outputs.status = ⟨true, false⟩) ∧
  (∀ (len n : Nat) (s : State), s.ready = true →
    ∃ t, transmit len (List.replicate (n + 1) (some 0)) s = .next t ∧ t.outputs.nSyms = 0 ∧
      t.outputs.status = ⟨false, true⟩ ∧ t.outMem = s.outMem)

/-- 43_transmission_state_machine.md R180, the stream law: from `IDLE`, with the same buffer throughout and `NOP`s
anywhere, what `ENCODE`s of any capacities have appended to `OUT` is the beginning of the one frame; once the capacity
reaches `8*LEN + 1` it is the whole frame, the last status is `COMPLETE` and the block is `IDLE` again. Until then
every `ENCODE` reported `MEM_FULL` (`transmit` would have ended at any other status). The spec marks R180 as derived
from R132, R167, R177 and R178. -/
def Obligations.TransmissionStreamLaw : Prop :=
  ∀ (data : List Byte) (moves : List (Option Nat)) (s : State),
    s.ready = true → s.idle = true → s.inMem = Memory.ofBytes data →
    ∃ t, transmit data.length moves s = .next t ∧
      t.outMem = s.outMem ++ (s.cfg.frame data).take (capacity moves) ∧
      (8 * data.length + 1 ≤ capacity moves →
        t.outMem = s.outMem ++ s.cfg.frame data ∧ t.idle = true ∧ t.outputs.status = ⟨true, false⟩) ∧
      (capacity moves < 8 * data.length → t.phase = .emitData ∧ t.cursor = capacity moves) ∧
      (capacity moves = 8 * data.length → t.cursor = 8 * data.length)

/-- 43_transmission_state_machine.md R181: with a constant capacity `n ≥ 1` a transmission takes exactly `ceil((8*LEN
+ 1) / n)` `ENCODE`s, because each one before the last fills its buffer. The spec marks R181 as derived from R177 and
R180. -/
def Obligations.TransmissionOperationCount : Prop :=
  ∀ (data : List Byte) (n k : Nat) (s : State),
    1 ≤ n → s.ready = true → s.idle = true → s.inMem = Memory.ofBytes data →
    ∃ t, transmit data.length (List.replicate k (some n)) s = .next t ∧
      ((8 * data.length + 1 + (n - 1)) / n ≤ k →
        t.outMem = s.outMem ++ s.cfg.frame data ∧ t.idle = true ∧ t.outputs.status = ⟨true, false⟩) ∧
      (k < (8 * data.length + 1 + (n - 1)) / n →
        t.outMem.length = s.outMem.length + k * n ∧ (1 ≤ k → t.outputs.status = ⟨false, true⟩))

/-- 41_bit_encoder.md R135 and 10_state.md R24: a transmission may be suspended after any whole symbol and resumes
exactly there, so an `ENCODE` with `a` slots that reports `MEM_FULL` and one with `b` slots after it come to the same
as one with `a + b`. The buffer holds all its bytes (a byte it lacks has any value, assumption 10). -/
def Obligations.SuspendedEncodeResumesExactly : Prop :=
  ∀ (len a b : Nat) (s : State), s.ready = true → (∀ k, k < len → (s.inMem.read k).isSome = true) →
    ∃ t u, exec (.encode ⟨true, len, a⟩) s = .next t ∧ exec (.encode ⟨true, len, a + b⟩) s = .next u ∧
      (t.outputs.status.memFull = true →
        ∃ v, exec (.encode ⟨true, len, b⟩) t = .next v ∧ v.phase = u.phase ∧ v.cursor = u.cursor ∧
          v.outMem = u.outMem ∧ v.outputs.status = u.outputs.status)

/-- 43_transmission_state_machine.md R169, R170: in `EMIT_DATA` an `ENCODE` is `BITENC` with the whole capacity, then,
if all input is consumed, `RSTENC` in the same operation with what `BITENC` left. The flags are read off the wires the
model keeps (assumption 5), and the sub-encoders run alone add to the words and the count that are there (6). -/
def Obligations.EncodeIsBitencThenRstenc : Prop :=
  ∀ (p : Operands) (s : State), s.ready = true → p.dataValid = true → s.phase = .emitData →
    ∃ b, exec (.bitenc p.len p.space) { s with outputs := { s.outputs with out := [], nSyms := 0 } } = .next b ∧
      (b.wires.bitExhausted = true →
        exec (.encode p) s = .next { b with outputs := { b.outputs with status := ⟨false, true⟩ } }) ∧
      (b.wires.bitExhausted = false → b.wires.consumed = true ∧
        ∃ u, exec (.rstenc (p.space - b.outputs.nSyms)) { b with phase := .emitReset } = .next u ∧
          (u.wires.done = true → exec (.encode p) s = .next { u with
            phase := .emitData, cursor := 0, outputs := { u.outputs with status := ⟨true, false⟩ } }) ∧
          (u.wires.done = false →
            exec (.encode p) s = .next { u with outputs := { u.outputs with status := ⟨false, true⟩ } }))

/-- 43_transmission_state_machine.md R173: in `EMIT_RESET` with no slot an `ENCODE` reports `MEM_FULL` and stays
there; it does not read `DATA` or `LEN` (two runs that differ in them answer alike). That it does not sample `IN` at
all is told by the model's own counter (assumption 10). That it is `RSTENC` and nothing else is
`Obligations.ResetPhaseIsRstenc`. -/
def Obligations.ResetPhaseIgnoresDataAndLength : Prop :=
  ∀ (p : Operands) (s : State) (len : Nat) (m : Memory), s.ready = true → p.dataValid = true → s.phase = .emitReset →
    ∃ t, exec (.encode p) s = .next t ∧ t.freeTick = s.freeTick ∧
      (p.space = 0 → t.outputs = ⟨[], 0, ⟨false, true⟩⟩ ∧ t.phase = .emitReset ∧ t.cursor = s.cursor) ∧
      exec (.encode { p with len := len }) { s with inMem := m } = .next { t with inMem := m }

/-- 20_memory.md R64: an `ENCODE` reads `DATA` from the cursor onward only: two buffers that agree on the bits at or
after the cursor give the same outputs, registers and appended words. The model's counter `freeTick` (assumption 10)
may differ between the two runs. -/
def Obligations.EncodeReadsOnlyOwedBits : Prop :=
  ∀ (p : Operands) (s : State) (m : Memory) (k : Nat), s.cfg.legal = true →
    (∀ c, s.cursor ≤ c → c < 8 * p.len → ({ s with inMem := m, freeTick := k } : State).inBit c = s.inBit c) →
    ∃ t t', exec (.encode p) s = .next t ∧ exec (.encode p) { s with inMem := m, freeTick := k } = .next t' ∧
      t'.outputs = t.outputs ∧ t'.outMem = t.outMem ∧ t'.phase = t.phase ∧ t'.cursor = t.cursor

/-- 10_state.md R20, R25: nothing but the two registers persists in the block: no command reads the output ports or
the internal wires an earlier operation left. The ports and wires an earlier operation left are fields the model keeps
(assumptions 4, 5), and `freeTick` is its counter (10). -/
def Obligations.CommandsNeverReadOutputsOrWires : Prop :=
  ∀ (i : Instr) (s : State) (o : Outputs) (w : Wires), s.cfg.legal = true → i.isCommand = true →
    (∀ p, i ≠ .reservedCmd3 p) →
    ∃ t t', exec i s = .next t ∧ exec i { s with outputs := o, wires := w } = .next t' ∧
      t'.outputs = t.outputs ∧ t'.outMem = t.outMem ∧ t'.phase = t.phase ∧ t'.cursor = t.cursor ∧
      t'.freeTick = t.freeTick

/-- 70_reset_and_hazards.md R244: a failing `ENCODE` reports `COMPLETE` but keeps the position, so the next `ENCODE`
answers exactly as it would have without it. That the two answers are the same whole state rests on the failure path
leaving the internal wires too (assumption 19). The failing `ENCODE` here is one with no input; one that fails by a
strap is `Obligations.EncodeFailureIsSilentNoop`. -/
def Obligations.FailingEncodeLeavesNoTrace : Prop :=
  ∀ (p q : Operands) (s : State), s.cfg.legal = true → p.dataValid = false →
    ∃ t, exec (.encode p) s = .next t ∧ t.outputs.status = ⟨true, false⟩ ∧ t.outputs.nSyms = 0 ∧
      t.phase = s.phase ∧ t.cursor = s.cursor ∧ exec (.encode q) t = exec (.encode q) s

/-- 70_reset_and_hazards.md R240 and 41_bit_encoder.md R133: where the host shrank `LEN` below the cursor, `BITENC`
emits nothing and reports `consumed`, so the `ENCODE` ends the data phase at once. The spec marks R133 as derived from
R131. The flags are read off the wires the model keeps (assumption 5); the cursor beyond the length is assumption 21.
-/
def Obligations.ShrunkLengthEndsDataPhase : Prop :=
  ∀ (p : Operands) (s : State), s.ready = true → p.dataValid = true → s.phase = .emitData → 8 * p.len < s.cursor →
    (∃ b, exec (.bitenc p.len p.space) s = .next b ∧ b.outMem = s.outMem ∧ b.cursor = s.cursor ∧
      b.wires.consumed = true ∧ b.wires.bitExhausted = false) ∧
    ∃ t, exec (.encode p) s = .next t ∧
      (1 ≤ p.space → t.outputs = ⟨[s.cfg.romWord .sr], 1, ⟨true, false⟩⟩ ∧ t.idle = true) ∧
      (p.space = 0 → t.outputs = ⟨[], 0, ⟨false, true⟩⟩ ∧ t.phase = .emitReset ∧ t.cursor = s.cursor)

/-! ### The sub-encoders and the ROM -/

/-- 41_bit_encoder.md R132, R133, R134: `BITENC` emits `min(space, max(0, 8*LEN - CURSOR))` symbols, the `k`-th one
`ROM[bit(c0 + k)]`; `consumed` and `exhausted` say whether a bit is still owed at exit, exactly one is true, and
`exhausted` implies that no slot is left. The spec marks R133 and R134 as derived from R131. The flags are read off
the wires the model keeps (assumption 5), and `BITENC` run alone adds to the words and the count that are there (6).
-/
def Obligations.BitencEmitsOwedBits : Prop :=
  ∀ (len space : Nat) (s : State), s.cfg.legal = true →
    ∃ t, exec (.bitenc len space) s = .next t ∧
      t.cursor = s.cursor + min space (8 * len - s.cursor) ∧
      (∃ ws, t.outMem = s.outMem ++ ws ∧ t.outputs.out = s.outputs.out ++ ws ∧
        ws.length = min space (8 * len - s.cursor) ∧ t.outputs.nSyms = s.outputs.nSyms + ws.length ∧
        ∀ k, k < ws.length → ws[k]? = some (s.cfg.romWord (if s.inBit (s.cursor + k) then .s1 else .s0))) ∧
      (t.wires.consumed = true ↔ 8 * len ≤ t.cursor) ∧ (t.wires.bitExhausted = true ↔ t.cursor < 8 * len) ∧
      t.wires.consumed = !t.wires.bitExhausted ∧
      (t.wires.bitExhausted = true → space - min space (8 * len - s.cursor) = 0)

/-- 41_bit_encoder.md R131, what `BITENC` leaves: `PHASE`, the status flags, the configuration, every byte of `IN`,
the words already on `OUT`, the wires of `RSTENC` and the host's operations. That `IN` was sampled once is told by the
model's own counter (assumption 10), and that the wires of `RSTENC` stay is a fact about fields the model keeps
(assumption 5). -/
def Obligations.BitencLeavesTheRest : Prop :=
  ∀ (len space : Nat) (s t : State), exec (.bitenc len space) s = .next t →
    t.phase = s.phase ∧ t.outputs.status = s.outputs.status ∧ t.cfg = s.cfg ∧ t.pending = s.pending ∧
    (∀ a, t.inMem.read a = s.inMem.read a) ∧ t.outMem.take s.outMem.length = s.outMem ∧
    t.wires.done = s.wires.done ∧ t.wires.rstExhausted = s.wires.rstExhausted ∧ t.freeTick = s.freeTick + 1

/-- 42_reset_latch_encoder.md R151: `RSTENC` emits `SR` where there is a slot, else nothing; exactly one of `done` and
`exhausted`; neither register is written, nor anything else. The model's choices are that `RSTENC` runs alone and then
adds to the words and the count that are there (assumption 6), that its flags stand on wires and those of `BITENC`
persist (5), and that its own counter `freeTick` stays (10). -/
def Obligations.RstencEmitsResetSymbolOrNothing : Prop :=
  ∀ (space : Nat) (s : State), s.cfg.legal = true →
    ∃ t, exec (.rstenc space) s = .next t ∧
      (1 ≤ space → t.outMem = s.outMem ++ [s.cfg.romWord .sr] ∧ t.outputs.out = s.outputs.out ++ [s.cfg.romWord .sr] ∧
        t.outputs.nSyms = s.outputs.nSyms + 1 ∧ t.wires.done = true ∧ t.wires.rstExhausted = false) ∧
      (space = 0 → t.outMem = s.outMem ∧ t.outputs = s.outputs ∧ t.wires.done = false ∧ t.wires.rstExhausted = true) ∧
      t.phase = s.phase ∧ t.cursor = s.cursor ∧ t.cfg = s.cfg ∧ t.pending = s.pending ∧ t.freeTick = s.freeTick ∧
      t.outputs.status = s.outputs.status ∧ t.wires.consumed = s.wires.consumed ∧
      t.wires.bitExhausted = s.wires.bitExhausted ∧ ∀ a, t.inMem.read a = s.inMem.read a

/-- 43_transmission_state_machine.md R175: after `BITENC` exactly one of its flags is true, after `RSTENC` exactly one
of its own, so no operation ends on neither; were both true, `MEM_FULL` would be returned with `PHASE = EMIT_DATA`,
and neither would be refused. The spec marks R175 as derived; the refusal is its decision D28 (assumption 16). The
flags are read off the wires the model keeps (assumption 5). -/
def Obligations.SubEncodersReportExactlyOneFlag : Prop :=
  (∀ (len space : Nat) (s : State),
    (bitenc len space s).wires.consumed = !(bitenc len space s).wires.bitExhausted ∧
    (rstenc space s).wires.done = !(rstenc space s).wires.rstExhausted) ∧
  (∀ (i : Instr) (s : State), exec i s ≠ .refused .neitherFlag) ∧
  (∀ (space : Nat) (s : State), s.phase = .emitData → s.wires.bitExhausted = true →
    ∃ t, afterBitenc space s = .next t ∧ t.phase = .emitData ∧ t.outputs.status = ⟨false, true⟩) ∧
  (∀ (space : Nat) (s : State), s.wires.bitExhausted = false → s.wires.consumed = false →
    afterBitenc space s = .refused .neitherFlag)

/-- 40_symbol_rom.md R116: `ROMREAD` returns `S0`, `S1`, `SR` for the addresses 0, 1, 2 and writes no state; address 3
is refused. The model's choices are that `ROMREAD` runs alone (assumption 6), that the word it returns stands on a
data wire kept in the state and the other wires persist (5), and that the counter `freeTick` stays (10). -/
def Obligations.RomreadReturnsSymbol : Prop :=
  ∀ s : State, s.cfg.legal = true →
    exec (.romread 0#2) s = .next { s with wires := { s.wires with romData := s.cfg.romWord .s0 } } ∧
    exec (.romread 1#2) s = .next { s with wires := { s.wires with romData := s.cfg.romWord .s1 } } ∧
    exec (.romread 2#2) s = .next { s with wires := { s.wires with romData := s.cfg.romWord .sr } } ∧
    exec (.romread 3#2) s = .refused .reservedRomAddress

/-- The model's choice (assumption 7): a symbol word run as an instruction is that symbol emitted, one whole word
appended to `OUT` (20_memory.md R53, R60), so its waveform follows on the line (40_symbol_rom.md R117, R118). What the
waveform is rests on assumptions 13, 14 and 15. -/
def Obligations.SymbolWordsAreEmittedWhole : Prop :=
  ∀ (i : Instr) (e : RomIndex) (s : State), s.cfg.legal = true →
    ((i = .sym0 ∧ e = .s0) ∨ (i = .sym1 ∧ e = .s1) ∨ (i = .symr ∧ e = .sr)) →
    ∃ t, exec i s = .next t ∧ t.waveform = s.waveform ++ (s.cfg.romSymbol e).wave ∧
      t = { s with
        outMem := s.outMem ++ [s.cfg.romWord e]
        outputs := { s.outputs with out := s.outputs.out ++ [s.cfg.romWord e], nSyms := s.outputs.nSyms + 1 } }

/-- 40_symbol_rom.md R111: the ROM has words at the addresses 0, 1 and 2 and no other, and row by row they hold the
configured levels and durations, each duration exactly (R86: no wrap-around). -/
def Obligations.RomHoldsConfiguredSymbols : Prop :=
  (∀ (cfg : Config) (a : BitVec 2) (e : RomIndex) (l0 : Bool) (ns0 ns1 : Nat), cfg.legal = true →
    ((a = 0#2 ∧ e = .s0 ∧ l0 = true ∧ ns0 = cfg.t0hNs ∧ ns1 = cfg.t0lNs) ∨
     (a = 1#2 ∧ e = .s1 ∧ l0 = true ∧ ns0 = cfg.t1hNs ∧ ns1 = cfg.t1lNs) ∨
     (a = 2#2 ∧ e = .sr ∧ l0 = false ∧ ns0 = cfg.rst0Ns ∧ ns1 = cfg.rst1Ns)) →
    RomIndex.ofAddr a = some e ∧ e.addr = a ∧
    (Symbol.ofWord (cfg.romWord e)).level0 = l0 ∧
    (Symbol.ofWord (cfg.romWord e)).duration0.toNat = ns0 / cfg.tickNs ∧
    (Symbol.ofWord (cfg.romWord e)).level1 = false ∧
    (Symbol.ofWord (cfg.romWord e)).duration1.toNat = ns1 / cfg.tickNs) ∧
  RomIndex.ofAddr 3#2 = none ∧ ∀ e : RomIndex, e.addr = 0#2 ∨ e.addr = 1#2 ∨ e.addr = 2#2

/-- 40_symbol_rom.md R112, R113 and 30_encoding.md R81: both bit symbols are high, then low; `S0` has the shorter high
half; the durations of `S0` and `S1` are at least 1, and those of `SR` are not both 0. The order of R113 is the spec's
decision D12, from general knowledge; R81 is marked derived. -/
def Obligations.BitSymbolsAreHighThenLow : Prop :=
  ∀ cfg : Config, cfg.legal = true →
    (∀ b y, y = Symbol.ofWord (cfg.romWord (RomIndex.ofBit b)) →
      y.level0 = true ∧ y.level1 = false ∧ 1 ≤ y.duration0.toNat ∧ 1 ≤ y.duration1.toNat) ∧
    (Symbol.ofWord (cfg.romWord .s0)).duration0.toNat < (Symbol.ofWord (cfg.romWord .s1)).duration0.toNat ∧
    (∀ y, y = Symbol.ofWord (cfg.romWord .sr) →
      y.level0 = false ∧ y.level1 = false ∧ 1 ≤ y.duration0.toNat + y.duration1.toNat)

/-- 30_encoding.md R80: the fields of a symbol word lie at 14:0, 15, 30:16 and 31, and words and 4-tuples correspond.
The layout is the spec's decision D3, from general knowledge. -/
def Obligations.SymbolWordIsBijection : Prop :=
  (∀ y : Symbol, Symbol.ofWord y.toWord = y) ∧ (∀ w : Word, (Symbol.ofWord w).toWord = w) ∧
  ∀ y : Symbol, y.toWord.toNat =
    y.level1.toNat * 2 ^ 31 + y.duration1.toNat * 2 ^ 16 + y.level0.toNat * 2 ^ 15 + y.duration0.toNat

/-- 30_encoding.md R85: the ROM address of a data bit is its zero extension, which reads `S0` for 0 and `S1` for 1.
The ROM addresses are the spec's decision D25 (assumption 20). -/
def Obligations.RomAddressIsZeroExtendedBit : Prop :=
  ∀ b : Bool, (romAddrOfBit b).toNat = b.toNat ∧ RomIndex.ofAddr (romAddrOfBit b) = some (RomIndex.ofBit b) ∧
    (RomIndex.ofBit b).addr = romAddrOfBit b ∧ RomIndex.sr.addr = 2#2

/-! ### Input order, waveform, time -/

/-- 20_memory.md R55, R56: bytes in ascending index, and within a byte bit 7 first, down to bit 0. -/
def Obligations.InputBitsMsbFirst : Prop :=
  ∀ (s : State) (data : List Byte) (a k : Nat) (b : Byte), s.inMem = Memory.ofBytes data → data[a]? = some b → k < 8 →
    s.inBit (8 * a + k) = b.getLsbD (7 - k)

/-- 20_memory.md R57: a pixel goes out green, red, blue, each byte most significant bit first, then `SR`. -/
def Obligations.PixelGoesOutInWireOrder : Prop :=
  ∀ (cfg : Config) (r g b : Byte), cfg.frame (pixelBytes r g b) =
    (([g, r, b].flatMap fun v => (List.range 8).map fun k => v.getLsbD (7 - k)).map
      fun x => cfg.romWord (RomIndex.ofBit x)) ++ [cfg.romWord .sr]

/-- 70_reset_and_hazards.md R234: the host's first transmission, `DATA = [0x00, 0x00, 0x00]`, is twenty-four `S0` and
one `SR`; one `ENCODE` does it where there are 25 slots. -/
def Obligations.DarkFrameIsTwentyFourZeros : Prop :=
  ∀ (s : State) (space : Nat), s.ready = true → s.idle = true → s.inMem = Memory.ofBytes darkBytes → 25 ≤ space →
    ∃ t, exec (.encode ⟨true, 3, space⟩) s = .next t ∧ t.idle = true ∧
      t.outputs = ⟨List.replicate 24 (s.cfg.romWord .s0) ++ [s.cfg.romWord .sr], 25, ⟨true, false⟩⟩

/-- 40_symbol_rom.md R121 and 30_encoding.md R86: `D` truncates, so a played width is at most the configured one and
less than one tick short of it. Truncation is the spec's decision D11 (assumption 12); R121 is marked derived. -/
def Obligations.DurationsTruncate : Prop :=
  ∀ (cfg : Config) (ns : Nat), 1 ≤ cfg.tickNs → cfg.ticks ns ≤ 32767 →
    cfg.nanoseconds (cfg.duration ns).toNat ≤ ns ∧ ns < cfg.nanoseconds (cfg.duration ns).toNat + cfg.tickNs

/-- 40_symbol_rom.md R117, R118: the waveform of a symbol is `d0` ticks of `l0`, then `d1` ticks of `l1`; a half of
duration 0 contributes nothing; a sequence is the concatenation of its symbols. That half 0 comes first and that a
zero half adds no tick are the spec's decisions D24, D20 (assumptions 13, 14). That nothing lies between two symbols
is R118's assumption on the peripheral (15). -/
def Obligations.WaveformsConcatenate : Prop :=
  (∀ y : Symbol, wave [y.toWord] =
    List.replicate y.duration0.toNat y.level0 ++ List.replicate y.duration1.toNat y.level1) ∧
  (∀ y : Symbol, (wave [y.toWord]).length = y.duration0.toNat + y.duration1.toNat) ∧
  ∀ ws vs : List Word, wave (ws ++ vs) = wave ws ++ wave vs

/-- 40_symbol_rom.md R120: the waveform of one whole transmission and its length; it does not depend on how many
`ENCODE`s produced it. The spec marks R120 as derived; it rests on half 0 first (assumption 13), on a zero half adding
no tick (14), and on the words being played with no gap (15; R212, U6). -/
def Obligations.TransmissionWaveform : Prop :=
  ∀ (data : List Byte) (moves : List (Option Nat)) (s : State),
    s.ready = true → s.idle = true → s.inMem = Memory.ofBytes data → 8 * data.length + 1 ≤ capacity moves →
    ∃ t v, transmit data.length moves s = .next t ∧ t.waveform = s.waveform ++ v ∧
      v = ((List.range (8 * data.length)).flatMap fun c =>
        if bufferBit data c then
          List.replicate (s.cfg.ticks s.cfg.t1hNs) true ++ List.replicate (s.cfg.ticks s.cfg.t1lNs) false
        else List.replicate (s.cfg.ticks s.cfg.t0hNs) true ++ List.replicate (s.cfg.ticks s.cfg.t0lNs) false) ++
        List.replicate (s.cfg.ticks s.cfg.rst0Ns + s.cfg.ticks s.cfg.rst1Ns) false ∧
      v.length = ((List.range (8 * data.length)).map fun c =>
        if bufferBit data c then s.cfg.ticks s.cfg.t1hNs + s.cfg.ticks s.cfg.t1lNs
        else s.cfg.ticks s.cfg.t0hNs + s.cfg.ticks s.cfg.t0lNs).sum +
        (s.cfg.ticks s.cfg.rst0Ns + s.cfg.ticks s.cfg.rst1Ns)

/-- 40_symbol_rom.md R119, with the idle level low and no gap inside a transmission (assumption 15), half 0 played first
(13), a half of duration 0 adding no tick (14), and idle time before any transmission (22): after the high half of the
last data bit the line is low for `D(T?L_NS) + D(RST0_NS) + D(RST1_NS)` ticks and then until the next transmission's
first symbol, for ever where none follows; just before, it is high. -/
def Obligations.LineIsLowAfterTheLastBit : Prop :=
  ∀ (cfg : Config) (data : List Byte) (b : Bool) (before after : List Stretch) (idle n low : Nat), cfg.legal = true →
    1 ≤ data.length → b = bufferBit data (8 * data.length - 1) →
    low = cfg.ticks (if b then cfg.t1lNs else cfg.t0lNs) + cfg.ticks cfg.rst0Ns + cfg.ticks cfg.rst1Ns →
    n + low = (line before).length + idle + (wave (cfg.frame data)).length →
    1 ≤ n ∧ lineLevel (before ++ ⟨idle, cfg.frame data⟩ :: after) ((n : Int) - 1) = true ∧
    (∀ t : Int, n ≤ t → t < n + low → lineLevel (before ++ ⟨idle, cfg.frame data⟩ :: after) t = false) ∧
    (∀ (next : Stretch) (rest : List Stretch) (t : Int), after = next :: rest → n ≤ t → t < n + low + next.idle →
      lineLevel (before ++ ⟨idle, cfg.frame data⟩ :: after) t = false) ∧
    (after = [] → ∀ t : Int, n ≤ t → lineLevel (before ++ ⟨idle, cfg.frame data⟩ :: after) t = false)

/-! ### Encoding -/

/-- 30_encoding.md R82: a command with operands of 8 and 16 bits is decoded from its packed word with every operand,
and every word that decodes is the packed word of what it decodes to. The packing is the spec's decision D4. -/
def Obligations.CommandWordRoundTrip : Prop :=
  (∀ (cfg : Config) (i : Instr), cfg.lenW = 8 → cfg.spaceW = 16 → i.isCommand = true → i.wellFormed cfg = true →
    ∃ w, encode cfg i = some w ∧ decodeWord w = .ok i) ∧
  (∀ (cfg : Config) (w : Word) (i : Instr), decodeWord w = .ok i → i.isCommand = true ∧ encode cfg i = some w) ∧
  ∀ w : Word, (∃ i, decodeWord w = .ok i) ↔ w.extractLsb' 3 5 = 0#5

/-- 30_encoding.md R88: in a legal configuration each of the three symbol words is read back to its own name, and no
other word has one. The spec marks R88 as derived. -/
def Obligations.SymbolWordRoundTrip : Prop :=
  ∀ cfg : Config, cfg.legal = true →
    (∀ (i : Instr) (w : Word), i.isCommand = false → encode cfg i = some w → decodeSymbol cfg w = .ok i) ∧
    (∀ (i : Instr) (w : Word), decodeSymbol cfg w = .ok i → encode cfg i = some w ∧ w ∈ cfg.romWords) ∧
    (∀ w : Word, w ∉ cfg.romWords → decodeSymbol cfg w = .error .notARomSymbol)

/-- The command words of 95_test_vectors.md V9b, with its `ENCODE` word also that of program P1, and the reference
symbol words of 30_encoding.md R88, each decoded to what it stands for. -/
def Obligations.TableWordsDecode : Prop :=
  decodeWord 0x00000000#32 = .ok (.nop ⟨false, 0, 0⟩) ∧
  decodeWord 0x00000002#32 = .ok (.reset ⟨false, 0, 0⟩) ∧
  decodeWord 0x00190305#32 = .ok (.encode ⟨true, 3, 25⟩) ∧
  decodeWord 0x000C0301#32 = .ok (.encode ⟨false, 3, 12⟩) ∧
  decodeWord 0x00000003#32 = .ok (.reservedCmd3 ⟨false, 0, 0⟩) ∧
  decodeSymbol Config.reference 0x00118008#32 = .ok .sym0 ∧
  decodeSymbol Config.reference 0x00098010#32 = .ok .sym1 ∧
  decodeSymbol Config.reference 0x0FA00001#32 = .ok .symr

/-! ### The step and the whole machine -/

/-- 43_transmission_state_machine.md R165: the next operation of the host is taken off its list, its buffer is what
`IN` now holds, and the operation its command selects runs on that state. The host's list is the model's (assumption
3). -/
def Obligations.StepRunsDecodedInstruction : Prop :=
  ∀ (s : State) (op : HostOp) (rest : List HostOp) (i : Instr), s.pending = op :: rest → op.hwReset = false →
    op.command.decode = .ok i → i.wellFormed s.cfg = true →
    step s = exec i { s with pending := rest, inMem := (op.data.map Memory.ofBytes).getD s.inMem }

/-- 43_transmission_state_machine.md R166 (assumption 3): a step in which the host commands nothing is a `NOP`. That
the internal wires stay is the model's reading (assumption 19). -/
def Obligations.StepWithoutCommandIsNop : Prop :=
  ∀ s : State, s.cfg.legal = true → s.pending = [] →
    step s = .next { s with outputs := ⟨[], 0, ⟨false, false⟩⟩ }

/-- 30_encoding.md R89, second row: a packed word whose bits 7:3 are not zero is refused, and only such a word is. -/
def Obligations.NonZeroPaddingIsRefused : Prop :=
  ∀ (s : State) (op : HostOp) (rest : List HostOp) (w : Word), s.pending = op :: rest → op.hwReset = false →
    op.command = .word w → (step s = .refused .nonZeroPadding ↔ w.extractLsb' 3 5 ≠ 0#5)

/-- The model's choice (assumption 9), from the port widths of 10_state.md R29: a presented command whose `len` or
`space` does not fit its port is refused, whether it stands on the ports or in a packed word, and an operand does not
fit exactly when it is at least `2^LEN_W` or `2^SPACE_W`. -/
def Obligations.OperandTooWideIsRefused : Prop :=
  (∀ (s : State) (op : HostOp) (rest : List HostOp) (i : Instr), s.pending = op :: rest → op.hwReset = false →
    op.command.decode = .ok i → i.wellFormed s.cfg = false → step s = .refused .operandTooWide) ∧
  (∀ (cfg : Config) (cmd : BitVec 2) (p : Operands) (i : Instr), (Command.ports cmd p).decode = .ok i →
    (i.wellFormed cfg = false ↔ 2 ^ cfg.lenW ≤ p.len ∨ 2 ^ cfg.spaceW ≤ p.space)) ∧
  ∀ (cfg : Config) (w : Word) (i : Instr), (Command.word w).decode = .ok i →
    (i.wellFormed cfg = false ↔
      2 ^ cfg.lenW ≤ (w.extractLsb' 8 8).toNat ∨ 2 ^ cfg.spaceW ≤ (w.extractLsb' 16 16).toNat)

/-- 00_scope.md R7 (the bounds on `TICK_NS`, `LEN_W` and `SPACE_W`) and R8 (the others): a configuration is legal
exactly within the bounds. That outside them no operation and no step runs, each refusing where it starts, is the
model's reading of R8's "a model refuses it" (assumption 11). -/
def Obligations.IllegalConfigurationIsRefused : Prop :=
  (∀ cfg : Config, cfg.legal = true ↔
    (1 ≤ cfg.tickNs ∧ 2 ≤ cfg.lenW ∧ 1 ≤ cfg.spaceW) ∧
    (∀ ns ∈ [cfg.t0hNs, cfg.t0lNs, cfg.t1hNs, cfg.t1lNs], 1 ≤ ns / cfg.tickNs ∧ ns / cfg.tickNs ≤ 32767) ∧
    cfg.t0hNs / cfg.tickNs < cfg.t1hNs / cfg.tickNs ∧
    (∀ ns ∈ [cfg.rst0Ns, cfg.rst1Ns], ns / cfg.tickNs ≤ 32767) ∧
    1 ≤ cfg.rst0Ns / cfg.tickNs + cfg.rst1Ns / cfg.tickNs) ∧
  (∀ (i : Instr) (s : State), s.cfg.legal = false → (∀ p, i ≠ .reservedCmd3 p) →
    exec i s = .refused .illegalConfiguration) ∧
  ∀ s : State, s.cfg.legal = false → ∃ r, step s = .refused r

/-- 60_exceptions.md R200: no operation faults, the three commands complete in every state with any inputs, and a step
in a legal configuration is refused only for a reserved encoding or a value that fits no port. The refusal of an
operand no port can carry is the model's (assumption 9). -/
def Obligations.CommandsAlwaysComplete : Prop :=
  (∀ (p : Operands) (s : State), s.cfg.legal = true →
    (∃ t, exec (.nop p) s = .next t) ∧ (∃ t, exec (.encode p) s = .next t) ∧ ∃ t, exec (.reset p) s = .next t) ∧
  (∀ (s : State) (f : Fault), step s ≠ .fault f) ∧
  (∀ (s : State) (r : Refusal), s.cfg.legal = true → step s = .refused r →
    ∃ op rest, s.pending = op :: rest ∧ op.hwReset = false ∧
      ((r = .nonZeroPadding ∧ ∃ w, op.command = .word w ∧ w.extractLsb' 3 5 ≠ 0#5) ∨
       (r = .operandTooWide ∧ ∃ i, op.command.decode = .ok i ∧ i.wellFormed s.cfg = false) ∨
       (r = .reservedCommand ∧ ∃ p, op.command.decode = .ok (.reservedCmd3 p))))

/-- 40_symbol_rom.md R115: no operation and no step changes the configuration, so none changes the ROM, which is a
function of it. -/
def Obligations.ConfigurationNeverChanges : Prop :=
  (∀ (i : Instr) (s t : State), exec i s = .next t → t.cfg = s.cfg ∧ ∀ e, t.cfg.romWord e = s.cfg.romWord e) ∧
  ∀ s t : State, step s = .next t → t.cfg = s.cfg ∧ ∀ e, t.cfg.romWord e = s.cfg.romWord e

/-- 20_memory.md R53 and 30_encoding.md R81: whatever runs, `OUT` is only appended to, and only with words of the ROM.
The spec marks R81 as derived from R131 and R151. -/
def Obligations.OnlyRomWordsAreAppended : Prop :=
  (∀ (i : Instr) (s t : State), exec i s = .next t →
    ∃ ws, t.outMem = s.outMem ++ ws ∧ ∀ w ∈ ws, w = s.cfg.romWord .s0 ∨ w = s.cfg.romWord .s1 ∨ w = s.cfg.romWord .sr) ∧
  ∀ s t : State, step s = .next t → t.outMem = s.outMem ++ t.outputs.out ∧
    ∀ w ∈ t.outputs.out, w = s.cfg.romWord .s0 ∨ w = s.cfg.romWord .s1 ∨ w = s.cfg.romWord .sr

/-- 20_memory.md R50, R51: no operation writes `IN` (every byte reads as before) or the host's list. When `IN` counts
as sampled is the model's choice, told by its own counter `freeTick` (assumption 10): once, and only by `BITENC` and
by an `ENCODE` that is in `EMIT_DATA` and does not fail. -/
def Obligations.InstructionsLeaveInputAlone : Prop :=
  ∀ (i : Instr) (s t : State), exec i s = .next t →
    (∀ a, t.inMem.read a = s.inMem.read a) ∧ t.pending = s.pending ∧
    (t.freeTick = s.freeTick ∨ t.freeTick = s.freeTick + 1) ∧
    (t.freeTick = s.freeTick + 1 ↔
      (∃ len space, i = .bitenc len space) ∨
      ∃ p, i = .encode p ∧ s.ready = true ∧ p.dataValid = true ∧ s.phase = .emitData)

/-- 10_state.md R21, R22, R25, the frame over the registers and the status: only `ENCODE` and `RESET` write `PHASE`,
only they and `BITENC` write `CURSOR`, and no micro-operation or symbol word writes the status flags. The wires of R26
are driven by the sub-encoders and the ROM only; that `NOP`, `RESET` and the symbol words leave them is the model's
choice (assumptions 5, 7, 19). -/
def Obligations.RegistersWrittenByTheirWritersOnly : Prop :=
  ∀ (i : Instr) (s t : State), exec i s = .next t →
    (t.phase ≠ s.phase → (∃ p, i = .encode p) ∨ ∃ p, i = .reset p) ∧
    (t.cursor ≠ s.cursor → (∃ p, i = .encode p) ∨ (∃ p, i = .reset p) ∨ ∃ len space, i = .bitenc len space) ∧
    (t.outputs.status ≠ s.outputs.status → i.isCommand = true) ∧
    (t.wires ≠ s.wires → (∃ p, i = .encode p) ∨ (∃ len space, i = .bitenc len space) ∨ (∃ n, i = .rstenc n) ∨
      ∃ a, i = .romread a)

/-- 70_reset_and_hazards.md R232: three events bring the block to `IDLE`, and from a state that is not `IDLE` a step
reaches it by nothing else. -/
def Obligations.IdleReachedByThreeEvents : Prop :=
  (∀ s : State, s.hwReset.phase = .emitData ∧ s.hwReset.cursor = 0) ∧
  (∀ p s t, exec (.reset p) s = .next t → t.phase = .emitData ∧ t.cursor = 0) ∧
  (∀ p s t, exec (.encode p) s = .next t → s.cfg.romWord .sr ∈ t.outputs.out → t.phase = .emitData ∧ t.cursor = 0) ∧
  ∀ s t : State, step s = .next t → s.idle = false → t.idle = true →
    ∃ op rest, s.pending = op :: rest ∧
      (op.hwReset = true ∨ (∃ p, op.command.decode = .ok (.reset p)) ∨
        ((∃ p, op.command.decode = .ok (.encode p)) ∧ s.cfg.romWord .sr ∈ t.outputs.out))

/-- 10_state.md R32: with the length `LEN` held constant, between operations `EMIT_DATA` means `CURSOR < 8*LEN` or
`CURSOR = 0`, and `EMIT_RESET` means `CURSOR = 8*LEN`. The spec marks R32 as derived. -/
def Obligations.PositionInvariantIsKept : Prop :=
  (∀ (len : Nat) (s : State), s.idle = true → PositionInv len s) ∧
  (∀ (p : Operands) (s t : State), PositionInv p.len s → exec (.encode p) s = .next t → PositionInv p.len t) ∧
  (∀ (len : Nat) (p : Operands) (s t : State), PositionInv len s →
    (exec (.nop p) s = .next t ∨ exec (.reset p) s = .next t ∨ t = s.hwReset) → PositionInv len t) ∧
  ∀ s : State, PositionInv 0 s → s.idle = true ∨ (s.phase = .emitReset ∧ s.cursor = 0)

/-- Every step keeps the block's invariant (Safety.lean): the configuration stays legal (00_scope.md R8), `IN` stays
canonical, the cursor fits its bits (10_state.md R24), `n_syms` is the number of words on `out` and fits its port,
`out` is the end of `OUT`, all words are the ROM's (30_encoding.md R81), status 11 is not produced (R83). -/
def Obligations.StepKeepsInvariant : Prop :=
  ∀ s t : State, Inv s → step s = .next t → Inv t

/-- The state after reset meets the invariant. That its configuration is a legal one is the model's choice of the
reference numbers (assumption 2), and that `OUT` and the ports are empty is its choice too (assumption 4). -/
def Obligations.ResetMeetsInvariant : Prop := Inv State.reset

/-- 40_symbol_rom.md R119, with the idle level low and no gap inside a transmission (assumption 15), half 0 played first
(13), a zero half adding no tick (14) and idle time before any transmission (22): whatever was played before, a
transmission from `IDLE` is played as one more stretch; the line is low before the first stretch, in the idle time
before the transmission's first symbol, and after its last one; at its first data bit's first tick it is high. -/
def Obligations.LineIsLowAroundATransmission : Prop :=
  ∀ (data : List Byte) (moves : List (Option Nat)) (before : List Stretch) (idle : Nat) (s : State),
    s.ready = true → s.idle = true → s.inMem = Memory.ofBytes data → 8 * data.length + 1 ≤ capacity moves →
    s.playedAs before →
    ∃ t fs, transmit data.length moves s = .next t ∧ fs = before ++ [⟨idle, s.cfg.frame data⟩] ∧ t.playedAs fs ∧
      (∀ k : Int, k < 0 → lineLevel fs k = false) ∧
      (∀ k : Int, (line before).length ≤ k → k < (line before).length + idle → lineLevel fs k = false) ∧
      (∀ k : Int, (line fs).length ≤ k → lineLevel fs k = false) ∧
      (1 ≤ data.length → lineLevel fs ((line before).length + idle) = true)

/-- 43_transmission_state_machine.md R172, R173, the counterpart of `Obligations.EncodeIsBitencThenRstenc`: in
`EMIT_RESET` a non-failing `ENCODE` is `RSTENC` with the whole capacity and nothing else; where that is done it ends in
`IDLE` with `COMPLETE`, else in `EMIT_RESET` with `MEM_FULL`. That both are read off the wires is assumption 5; that
`COMPLETE` leaves `IDLE` stored is the spec's decision D6. -/
def Obligations.ResetPhaseIsRstenc : Prop :=
  ∀ (p : Operands) (s : State), s.ready = true → p.dataValid = true → s.phase = .emitReset →
    ∃ u, exec (.rstenc p.space) { s with outputs := { s.outputs with out := [], nSyms := 0 } } = .next u ∧
      (u.wires.done = true → u.wires.rstExhausted = false ∧ exec (.encode p) s = .next { u with
        phase := .emitData, cursor := 0, outputs := { u.outputs with status := ⟨true, false⟩ } }) ∧
      (u.wires.done = false → u.wires.rstExhausted = true ∧ u.phase = .emitReset ∧ u.cursor = s.cursor ∧
        exec (.encode p) s = .next { u with outputs := { u.outputs with status := ⟨false, true⟩ } })
end

