-- ==== Sys2Proof/Laws/Decode.lean ====
section
/-! SUPPORT. Command words bit field by bit field: what packing and unpacking do. -/

namespace Sys2Proof

/-- The bits of a packed command word (30_encoding.md R82). -/
theorem getLsbD_packCommand (cmd : BitVec 2) (p : Operands) (i : Nat) : (packCommand cmd p).getLsbD i =
    if i < 2 then cmd.getLsbD i
    else if i = 2 then p.dataValid
    else if i < 8 then false
    else if i < 16 then (BitVec.ofNat 8 p.len).getLsbD (i - 8)
    else (BitVec.ofNat 16 p.space).getLsbD (i - 16) := by
  simp only [packCommand, BitVec.getLsbD_append, BitVec.getLsbD_ofBool, BitVec.getLsbD_zero]
  split_ifs <;> first
    | rfl
    | omega
    | (simp only [Bool.and_eq_right_iff_imp, decide_eq_true_eq]; omega)

/-- The `cmd` field of a packed word. -/
theorem extract_cmd_packCommand (cmd : BitVec 2) (p : Operands) : (packCommand cmd p).extractLsb' 0 2 = cmd := by
  apply BitVec.eq_of_getLsbD_eq
  intro i hi
  rw [BitVec.getLsbD_extractLsb', Nat.zero_add, getLsbD_packCommand, if_pos hi]
  simp [hi]

/-- The padding field of a packed word is zero (30_encoding.md R82). -/
theorem extract_padding_packCommand (cmd : BitVec 2) (p : Operands) :
    (packCommand cmd p).extractLsb' 3 5 = 0#5 := by
  apply BitVec.eq_of_getLsbD_eq
  intro i hi
  rw [BitVec.getLsbD_extractLsb', getLsbD_packCommand, if_neg (by omega), if_neg (by omega), if_pos (by omega)]
  simp

/-- The operands of a packed word are the ones packed, where they fit (30_encoding.md R82). -/
theorem unpackOperands_packCommand (cmd : BitVec 2) {p : Operands} (h : p.fitsWord = true) :
    unpackOperands (packCommand cmd p) = p := by
  obtain ⟨hl, hs⟩ := of_decide_eq_true h
  have e1 : (packCommand cmd p).extractLsb' 8 8 = BitVec.ofNat 8 p.len := by
    apply BitVec.eq_of_getLsbD_eq
    intro i hi
    rw [BitVec.getLsbD_extractLsb', getLsbD_packCommand, if_neg (by omega), if_neg (by omega), if_neg (by omega),
      if_pos (by omega), show 8 + i - 8 = i by omega]
    simp [hi]
  have e2 : (packCommand cmd p).extractLsb' 16 16 = BitVec.ofNat 16 p.space := by
    apply BitVec.eq_of_getLsbD_eq
    intro i hi
    rw [BitVec.getLsbD_extractLsb', getLsbD_packCommand, if_neg (by omega), if_neg (by omega), if_neg (by omega),
      if_neg (by omega), show 16 + i - 16 = i by omega]
    simp [hi]
  have e3 : (packCommand cmd p).getLsbD 2 = p.dataValid := by
    rw [getLsbD_packCommand, if_neg (by omega), if_pos rfl]
  cases p with
  | mk v l sp =>
    simp only [unpackOperands, e1, e2, e3, BitVec.toNat_ofNat, Operands.mk.injEq, true_and]
    exact ⟨Nat.mod_eq_of_lt hl, Nat.mod_eq_of_lt hs⟩

/-- The operands of any word fit a word. -/
theorem fitsWord_unpackOperands (w : Word) : (unpackOperands w).fitsWord = true :=
  decide_eq_true ⟨(w.extractLsb' 8 8).isLt, (w.extractLsb' 16 16).isLt⟩

/-- A word with zero padding is packed again from its fields (30_encoding.md R82). -/
theorem packCommand_unpackOperands {w : Word} (h : w.extractLsb' 3 5 = 0#5) :
    packCommand (w.extractLsb' 0 2) (unpackOperands w) = w := by
  apply BitVec.eq_of_getLsbD_eq
  intro i hi
  have hpad : ∀ j, j < 5 → w.getLsbD (3 + j) = false := fun j hj => by
    have hj' := congrArg (fun v => v.getLsbD j) h
    simpa [BitVec.getLsbD_extractLsb', hj] using hj'
  rw [getLsbD_packCommand]
  simp only [unpackOperands, BitVec.ofNat_toNat, BitVec.setWidth_eq, BitVec.getLsbD_extractLsb', Nat.zero_add]
  split_ifs with h1 h2 h3 h4
  · simp [h1]
  · rw [h2]
  · have hz := hpad (i - 3) (by omega)
    rw [show 3 + (i - 3) = i by omega] at hz
    exact hz.symm
  · rw [show 8 + (i - 8) = i by omega]; simp [show i - 8 < 8 by omega]
  · rw [show 16 + (i - 16) = i by omega]; simp [show i - 16 < 16 by omega]

/-- The command port selects a command, never a micro-operation or a symbol word (30_encoding.md R87). -/
theorem isCommand_decodePorts (cmd : BitVec 2) (p : Operands) : (decodePorts cmd p).isCommand = true := by
  unfold decodePorts
  split_ifs <;> rfl

/-- The four values of `cmd` (30_encoding.md R82). -/
theorem cmd_cases (cmd : BitVec 2) : cmd = 0#2 ∨ cmd = 1#2 ∨ cmd = 2#2 ∨ cmd = 3#2 := by
  revert cmd; decide

end Sys2Proof
end

