-- ==== Sys2Proof/Laws/State.lean ====
section
/-! SUPPORT. One lemma for each field and each named update of the state, so that no later proof unfolds one. -/

namespace Sys2Proof.Machine

section present
variable (s : State) (d : List Byte)
@[simp] theorem State.present_phase : (s.present d).phase = s.phase := rfl
@[simp] theorem State.present_cursor : (s.present d).cursor = s.cursor := rfl
@[simp] theorem State.present_cfg : (s.present d).cfg = s.cfg := rfl
@[simp] theorem State.present_inMem : (s.present d).inMem = Memory.ofBytes d := rfl
@[simp] theorem State.present_outMem : (s.present d).outMem = s.outMem := rfl
@[simp] theorem State.present_outputs : (s.present d).outputs = s.outputs := rfl
@[simp] theorem State.present_wires : (s.present d).wires = s.wires := rfl
@[simp] theorem State.present_pending : (s.present d).pending = s.pending := rfl
@[simp] theorem State.present_freeTick : (s.present d).freeTick = s.freeTick := rfl
end present

section readRom
variable (s : State) (e : RomIndex)
@[simp] theorem State.readRom_phase : (s.readRom e).phase = s.phase := rfl
@[simp] theorem State.readRom_cursor : (s.readRom e).cursor = s.cursor := rfl
@[simp] theorem State.readRom_cfg : (s.readRom e).cfg = s.cfg := rfl
@[simp] theorem State.readRom_inMem : (s.readRom e).inMem = s.inMem := rfl
@[simp] theorem State.readRom_outMem : (s.readRom e).outMem = s.outMem := rfl
@[simp] theorem State.readRom_outputs : (s.readRom e).outputs = s.outputs := rfl
@[simp] theorem State.readRom_wires : (s.readRom e).wires = { s.wires with romData := s.cfg.romWord e } := rfl
@[simp] theorem State.readRom_pending : (s.readRom e).pending = s.pending := rfl
@[simp] theorem State.readRom_freeTick : (s.readRom e).freeTick = s.freeTick := rfl
end readRom

section emit
variable (s : State) (w : Word)
@[simp] theorem State.emit_phase : (s.emit w).phase = s.phase := rfl
@[simp] theorem State.emit_cursor : (s.emit w).cursor = s.cursor := rfl
@[simp] theorem State.emit_cfg : (s.emit w).cfg = s.cfg := rfl
@[simp] theorem State.emit_inMem : (s.emit w).inMem = s.inMem := rfl
@[simp] theorem State.emit_outMem : (s.emit w).outMem = s.outMem ++ [w] := rfl
@[simp] theorem State.emit_outputs : (s.emit w).outputs = { s.outputs with out := s.outputs.out ++ [w], nSyms := s.outputs.nSyms + 1 } := rfl
@[simp] theorem State.emit_wires : (s.emit w).wires = s.wires := rfl
@[simp] theorem State.emit_pending : (s.emit w).pending = s.pending := rfl
@[simp] theorem State.emit_freeTick : (s.emit w).freeTick = s.freeTick := rfl
end emit

section emitRom
variable (s : State) (e : RomIndex)
@[simp] theorem State.emitRom_phase : (s.emitRom e).phase = s.phase := rfl
@[simp] theorem State.emitRom_cursor : (s.emitRom e).cursor = s.cursor := rfl
@[simp] theorem State.emitRom_cfg : (s.emitRom e).cfg = s.cfg := rfl
@[simp] theorem State.emitRom_inMem : (s.emitRom e).inMem = s.inMem := rfl
@[simp] theorem State.emitRom_outMem : (s.emitRom e).outMem = s.outMem ++ [s.cfg.romWord e] := rfl
@[simp] theorem State.emitRom_outputs : (s.emitRom e).outputs = { s.outputs with out := s.outputs.out ++ [s.cfg.romWord e], nSyms := s.outputs.nSyms + 1 } := rfl
@[simp] theorem State.emitRom_wires : (s.emitRom e).wires = { s.wires with romData := s.cfg.romWord e } := rfl
@[simp] theorem State.emitRom_pending : (s.emitRom e).pending = s.pending := rfl
@[simp] theorem State.emitRom_freeTick : (s.emitRom e).freeTick = s.freeTick := rfl
end emitRom

section clearOut
variable (s : State)
@[simp] theorem State.clearOut_phase : (s.clearOut).phase = s.phase := rfl
@[simp] theorem State.clearOut_cursor : (s.clearOut).cursor = s.cursor := rfl
@[simp] theorem State.clearOut_cfg : (s.clearOut).cfg = s.cfg := rfl
@[simp] theorem State.clearOut_inMem : (s.clearOut).inMem = s.inMem := rfl
@[simp] theorem State.clearOut_outMem : (s.clearOut).outMem = s.outMem := rfl
@[simp] theorem State.clearOut_outputs : (s.clearOut).outputs = { s.outputs with out := [], nSyms := 0 } := rfl
@[simp] theorem State.clearOut_wires : (s.clearOut).wires = s.wires := rfl
@[simp] theorem State.clearOut_pending : (s.clearOut).pending = s.pending := rfl
@[simp] theorem State.clearOut_freeTick : (s.clearOut).freeTick = s.freeTick := rfl
end clearOut

section respond
variable (s : State) (f : Status)
@[simp] theorem State.respond_phase : (s.respond f).phase = s.phase := rfl
@[simp] theorem State.respond_cursor : (s.respond f).cursor = s.cursor := rfl
@[simp] theorem State.respond_cfg : (s.respond f).cfg = s.cfg := rfl
@[simp] theorem State.respond_inMem : (s.respond f).inMem = s.inMem := rfl
@[simp] theorem State.respond_outMem : (s.respond f).outMem = s.outMem := rfl
@[simp] theorem State.respond_outputs : (s.respond f).outputs = { s.outputs with status := f } := rfl
@[simp] theorem State.respond_wires : (s.respond f).wires = s.wires := rfl
@[simp] theorem State.respond_pending : (s.respond f).pending = s.pending := rfl
@[simp] theorem State.respond_freeTick : (s.respond f).freeTick = s.freeTick := rfl
end respond

section returnNothing
variable (s : State) (f : Status)
@[simp] theorem State.returnNothing_phase : (s.returnNothing f).phase = s.phase := rfl
@[simp] theorem State.returnNothing_cursor : (s.returnNothing f).cursor = s.cursor := rfl
@[simp] theorem State.returnNothing_cfg : (s.returnNothing f).cfg = s.cfg := rfl
@[simp] theorem State.returnNothing_inMem : (s.returnNothing f).inMem = s.inMem := rfl
@[simp] theorem State.returnNothing_outMem : (s.returnNothing f).outMem = s.outMem := rfl
@[simp] theorem State.returnNothing_outputs : (s.returnNothing f).outputs = ⟨[], 0, f⟩ := rfl
@[simp] theorem State.returnNothing_wires : (s.returnNothing f).wires = s.wires := rfl
@[simp] theorem State.returnNothing_pending : (s.returnNothing f).pending = s.pending := rfl
@[simp] theorem State.returnNothing_freeTick : (s.returnNothing f).freeTick = s.freeTick := rfl
end returnNothing

section toIdle
variable (s : State)
@[simp] theorem State.toIdle_phase : (s.toIdle).phase = .emitData := rfl
@[simp] theorem State.toIdle_cursor : (s.toIdle).cursor = 0 := rfl
@[simp] theorem State.toIdle_cfg : (s.toIdle).cfg = s.cfg := rfl
@[simp] theorem State.toIdle_inMem : (s.toIdle).inMem = s.inMem := rfl
@[simp] theorem State.toIdle_outMem : (s.toIdle).outMem = s.outMem := rfl
@[simp] theorem State.toIdle_outputs : (s.toIdle).outputs = s.outputs := rfl
@[simp] theorem State.toIdle_wires : (s.toIdle).wires = s.wires := rfl
@[simp] theorem State.toIdle_pending : (s.toIdle).pending = s.pending := rfl
@[simp] theorem State.toIdle_freeTick : (s.toIdle).freeTick = s.freeTick := rfl
end toIdle

section failurePath
variable (s : State)
@[simp] theorem State.failurePath_phase : (s.failurePath).phase = s.phase := rfl
@[simp] theorem State.failurePath_cursor : (s.failurePath).cursor = s.cursor := rfl
@[simp] theorem State.failurePath_cfg : (s.failurePath).cfg = s.cfg := rfl
@[simp] theorem State.failurePath_inMem : (s.failurePath).inMem = s.inMem := rfl
@[simp] theorem State.failurePath_outMem : (s.failurePath).outMem = s.outMem := rfl
@[simp] theorem State.failurePath_outputs : (s.failurePath).outputs = ⟨[], 0, Status.completeOnly⟩ := rfl
@[simp] theorem State.failurePath_wires : (s.failurePath).wires = s.wires := rfl
@[simp] theorem State.failurePath_pending : (s.failurePath).pending = s.pending := rfl
@[simp] theorem State.failurePath_freeTick : (s.failurePath).freeTick = s.freeTick := rfl
end failurePath

section hwReset
variable (s : State)
@[simp] theorem State.hwReset_phase : (s.hwReset).phase = .emitData := rfl
@[simp] theorem State.hwReset_cursor : (s.hwReset).cursor = 0 := rfl
@[simp] theorem State.hwReset_cfg : (s.hwReset).cfg = s.cfg := rfl
@[simp] theorem State.hwReset_inMem : (s.hwReset).inMem = s.inMem := rfl
@[simp] theorem State.hwReset_outMem : (s.hwReset).outMem = s.outMem := rfl
@[simp] theorem State.hwReset_outputs : (s.hwReset).outputs = Outputs.idle := rfl
@[simp] theorem State.hwReset_wires : (s.hwReset).wires = s.wires := rfl
@[simp] theorem State.hwReset_pending : (s.hwReset).pending = s.pending := rfl
@[simp] theorem State.hwReset_freeTick : (s.hwReset).freeTick = s.freeTick := rfl
end hwReset

section presentWord
variable (s : State) (w : Word)
@[simp] theorem State.presentWord_phase : (s.presentWord w).phase = s.phase := rfl
@[simp] theorem State.presentWord_cursor : (s.presentWord w).cursor = s.cursor := rfl
@[simp] theorem State.presentWord_cfg : (s.presentWord w).cfg = s.cfg := rfl
@[simp] theorem State.presentWord_inMem : (s.presentWord w).inMem = s.inMem := rfl
@[simp] theorem State.presentWord_outMem : (s.presentWord w).outMem = s.outMem := rfl
@[simp] theorem State.presentWord_outputs : (s.presentWord w).outputs = s.outputs := rfl
@[simp] theorem State.presentWord_wires : (s.presentWord w).wires = s.wires := rfl
@[simp] theorem State.presentWord_pending : (s.presentWord w).pending = ⟨false, .word w, none⟩ :: s.pending := rfl
@[simp] theorem State.presentWord_freeTick : (s.presentWord w).freeTick = s.freeTick := rfl
end presentWord

section sample
variable (s : State) (op : HostOp) (rest : List HostOp)
@[simp] theorem State.sample_phase : (s.sample op rest).phase = s.phase := by
  unfold State.sample; cases op.data <;> rfl
@[simp] theorem State.sample_cursor : (s.sample op rest).cursor = s.cursor := by
  unfold State.sample; cases op.data <;> rfl
@[simp] theorem State.sample_cfg : (s.sample op rest).cfg = s.cfg := by
  unfold State.sample; cases op.data <;> rfl
@[simp] theorem State.sample_inMem : (s.sample op rest).inMem = (op.data.map Memory.ofBytes).getD s.inMem := by
  unfold State.sample; cases op.data <;> rfl
@[simp] theorem State.sample_outMem : (s.sample op rest).outMem = s.outMem := by
  unfold State.sample; cases op.data <;> rfl
@[simp] theorem State.sample_outputs : (s.sample op rest).outputs = s.outputs := by
  unfold State.sample; cases op.data <;> rfl
@[simp] theorem State.sample_wires : (s.sample op rest).wires = s.wires := by
  unfold State.sample; cases op.data <;> rfl
@[simp] theorem State.sample_pending : (s.sample op rest).pending = rest := by
  unfold State.sample; cases op.data <;> rfl
@[simp] theorem State.sample_freeTick : (s.sample op rest).freeTick = s.freeTick := by
  unfold State.sample; cases op.data <;> rfl
end sample

/-- Sampling as one record update. -/
theorem State.sample_eq (s : State) (op : HostOp) (rest : List HostOp) :
    s.sample op rest = { s with pending := rest, inMem := (op.data.map Memory.ofBytes).getD s.inMem } := by
  unfold State.sample
  cases op.data <;> rfl

/-- An input bit depends on the state through `IN` and the free value's counter only. -/
theorem State.inBit_congr {s t : State} (hm : s.inMem = t.inMem) (hf : s.freeTick = t.freeTick) (c : Nat) :
    s.inBit c = t.inBit c := by
  simp only [State.inBit, State.inByte, hm, hf]

/-- The symbol of an input bit depends on the state through the ROM, `IN` and the free value's counter only. -/
theorem State.bitWord_congr {s t : State} (hg : s.cfg = t.cfg) (hm : s.inMem = t.inMem)
    (hf : s.freeTick = t.freeTick) (c : Nat) : s.bitWord c = t.bitWord c := by
  simp only [State.bitWord, hg, State.inBit_congr hm hf]

@[simp] theorem State.inBit_clearOut (s : State) (c : Nat) : s.clearOut.inBit c = s.inBit c := rfl
@[simp] theorem State.bitWord_clearOut (s : State) (c : Nat) : s.clearOut.bitWord c = s.bitWord c := rfl
@[simp] theorem State.nextWords_clearOut (s : State) (n : Nat) : s.clearOut.nextWords n = s.nextWords n := rfl
@[simp] theorem State.nextWords_zero (s : State) : s.nextWords 0 = [] := rfl
@[simp] theorem State.length_nextWords (s : State) (n : Nat) : (s.nextWords n).length = n := by simp [State.nextWords]

/-- `IDLE` unfolded once (10_state.md R23). -/
theorem State.idle_iff (s : State) : s.idle = true ↔ s.phase = .emitData ∧ s.cursor = 0 := by simp [State.idle]

@[simp] theorem Status.completeOnly_complete : Status.completeOnly.complete = true := rfl
@[simp] theorem Status.completeOnly_memFull : Status.completeOnly.memFull = false := rfl
@[simp] theorem Status.memFullOnly_complete : Status.memFullOnly.complete = false := rfl
@[simp] theorem Status.memFullOnly_memFull : Status.memFullOnly.memFull = true := rfl
@[simp] theorem Status.none_complete : Status.none.complete = false := rfl
@[simp] theorem Status.none_memFull : Status.none.memFull = false := rfl

/-- A guarded operation answers a next state only in a legal configuration, and then the operation's own answer. -/
theorem requireLegal_next {s t : State} {k : Host.Outcome State Fault Refusal} :
    requireLegal s k = .next t ↔ s.cfg.legal = true ∧ k = .next t := by
  unfold requireLegal
  split <;> simp_all

/-- In a legal configuration the guard is not there. -/
theorem requireLegal_of_legal {s : State} (h : s.cfg.legal = true) (k : Host.Outcome State Fault Refusal) :
    requireLegal s k = k := by
  simp [requireLegal, h]

/-- A ready block, unfolded once. -/
theorem State.encodeFails_of_ready {s : State} {p : Operands} (h : s.cfg.bitencOk = true) (h' : s.cfg.rstencOk = true)
    (hv : p.dataValid = true) : encodeFails s.cfg p.dataValid = false := by
  simp [encodeFails, h, h', hv]

end Sys2Proof.Machine
end

