-- ==== Sys2Proof/Laws/Encoders.lean ====
section
/-! SUPPORT. What the two sub-encoders do, said once. -/

namespace Sys2Proof.Machine

/-- `emitBit`, `n` times: what the loop of `BITENC` amounts to. -/
def emitBits : Nat → State → State
  | 0, s => s
  | n + 1, s => emitBits n s.emitBit

section emitBit
variable (s : State)
@[simp] theorem State.emitBit_phase : s.emitBit.phase = s.phase := rfl
@[simp] theorem State.emitBit_cursor : s.emitBit.cursor = s.cursor + 1 := rfl
@[simp] theorem State.emitBit_cfg : s.emitBit.cfg = s.cfg := rfl
@[simp] theorem State.emitBit_inMem : s.emitBit.inMem = s.inMem := rfl
@[simp] theorem State.emitBit_outMem : s.emitBit.outMem = s.outMem ++ [s.bitWord s.cursor] := rfl
@[simp] theorem State.emitBit_out : s.emitBit.outputs.out = s.outputs.out ++ [s.bitWord s.cursor] := rfl
@[simp] theorem State.emitBit_nSyms : s.emitBit.outputs.nSyms = s.outputs.nSyms + 1 := rfl
@[simp] theorem State.emitBit_status : s.emitBit.outputs.status = s.outputs.status := rfl
@[simp] theorem State.emitBit_done : s.emitBit.wires.done = s.wires.done := rfl
@[simp] theorem State.emitBit_rstExhausted : s.emitBit.wires.rstExhausted = s.wires.rstExhausted := rfl
@[simp] theorem State.emitBit_pending : s.emitBit.pending = s.pending := rfl
@[simp] theorem State.emitBit_freeTick : s.emitBit.freeTick = s.freeTick := rfl
@[simp] theorem State.emitBit_bitWord (c : Nat) : s.emitBit.bitWord c = s.bitWord c := rfl
end emitBit

/-- The next `n + 1` words are the word at the cursor, then the next `n` words after it. -/
theorem State.nextWords_succ (s : State) (n : Nat) :
    s.nextWords (n + 1) = s.bitWord s.cursor :: s.emitBit.nextWords n := by
  rw [State.nextWords, List.range_succ_eq_map, List.map_cons, List.map_map, Nat.add_zero]
  refine congrArg (s.bitWord s.cursor :: ·) (List.map_congr_left fun k _ => ?_)
  rw [Function.comp_apply, State.emitBit_bitWord, State.emitBit_cursor]
  exact congrArg s.bitWord (by simp only [Nat.succ_eq_add_one]; omega)

section emitBits
variable (n : Nat) (s : State)
@[simp] theorem emitBits_phase : (emitBits n s).phase = s.phase := by
  induction n generalizing s <;> simp_all [emitBits]
@[simp] theorem emitBits_cursor : (emitBits n s).cursor = s.cursor + n := by
  induction n generalizing s with
  | zero => rfl
  | succ n ih => simp [emitBits, ih]; omega
@[simp] theorem emitBits_cfg : (emitBits n s).cfg = s.cfg := by
  induction n generalizing s <;> simp_all [emitBits]
@[simp] theorem emitBits_inMem : (emitBits n s).inMem = s.inMem := by
  induction n generalizing s <;> simp_all [emitBits]
@[simp] theorem emitBits_outMem : (emitBits n s).outMem = s.outMem ++ s.nextWords n := by
  induction n generalizing s with
  | zero => simp [emitBits]
  | succ n ih => simp [emitBits, ih, State.nextWords_succ]
@[simp] theorem emitBits_out : (emitBits n s).outputs.out = s.outputs.out ++ s.nextWords n := by
  induction n generalizing s with
  | zero => simp [emitBits]
  | succ n ih => simp [emitBits, ih, State.nextWords_succ]
@[simp] theorem emitBits_nSyms : (emitBits n s).outputs.nSyms = s.outputs.nSyms + n := by
  induction n generalizing s with
  | zero => rfl
  | succ n ih => simp [emitBits, ih]; omega
@[simp] theorem emitBits_status : (emitBits n s).outputs.status = s.outputs.status := by
  induction n generalizing s <;> simp_all [emitBits]
@[simp] theorem emitBits_done : (emitBits n s).wires.done = s.wires.done := by
  induction n generalizing s <;> simp_all [emitBits]
@[simp] theorem emitBits_rstExhausted : (emitBits n s).wires.rstExhausted = s.wires.rstExhausted := by
  induction n generalizing s <;> simp_all [emitBits]
@[simp] theorem emitBits_pending : (emitBits n s).pending = s.pending := by
  induction n generalizing s <;> simp_all [emitBits]
end emitBits

/-- The loop of `BITENC` emits as many bits as there are both slots and owed bits (41_bit_encoder.md R133). -/
theorem bitencLoop_eq_emitBits (len space : Nat) (s : State) :
    bitencLoop len space s = emitBits (min space (8 * len - s.cursor)) s := by
  induction space generalizing s with
  | zero => simp [bitencLoop, emitBits]
  | succ n ih =>
    by_cases h : s.cursor < 8 * len
    · have hmin : min (n + 1) (8 * len - s.cursor) = min n (8 * len - (s.cursor + 1)) + 1 := by omega
      simp [bitencLoop, h, ih, hmin, emitBits]
    · have hmin : min (n + 1) (8 * len - s.cursor) = 0 := by omega
      simp [bitencLoop, h, hmin, emitBits]

/-- How many symbols a `BITENC` produces (41_bit_encoder.md R133). -/
def bitencCount (len space : Nat) (s : State) : Nat := min space (8 * len - s.cursor)

section bitenc
variable (len space : Nat) (s : State)
@[simp] theorem bitenc_phase : (bitenc len space s).phase = s.phase := by simp [bitenc, bitencLoop_eq_emitBits]
@[simp] theorem bitenc_cursor : (bitenc len space s).cursor = s.cursor + bitencCount len space s := by
  simp [bitenc, bitencLoop_eq_emitBits, bitencCount]
@[simp] theorem bitenc_cfg : (bitenc len space s).cfg = s.cfg := by simp [bitenc, bitencLoop_eq_emitBits]
@[simp] theorem bitenc_inMem : (bitenc len space s).inMem = s.inMem := by simp [bitenc, bitencLoop_eq_emitBits]
@[simp] theorem bitenc_outMem : (bitenc len space s).outMem = s.outMem ++ s.nextWords (bitencCount len space s) := by
  simp [bitenc, bitencLoop_eq_emitBits, bitencCount]
@[simp] theorem bitenc_out :
    (bitenc len space s).outputs.out = s.outputs.out ++ s.nextWords (bitencCount len space s) := by
  simp [bitenc, bitencLoop_eq_emitBits, bitencCount]
@[simp] theorem bitenc_nSyms : (bitenc len space s).outputs.nSyms = s.outputs.nSyms + bitencCount len space s := by
  simp [bitenc, bitencLoop_eq_emitBits, bitencCount]
@[simp] theorem bitenc_status : (bitenc len space s).outputs.status = s.outputs.status := by
  simp [bitenc, bitencLoop_eq_emitBits]
@[simp] theorem bitenc_consumed :
    (bitenc len space s).wires.consumed = decide (8 * len ≤ s.cursor + bitencCount len space s) := by
  show bitConsumed len (bitencLoop len space s).cursor = _
  rw [bitencLoop_eq_emitBits, emitBits_cursor]
  rfl
@[simp] theorem bitenc_bitExhausted :
    (bitenc len space s).wires.bitExhausted = decide (s.cursor + bitencCount len space s < 8 * len) := by
  show bitExhausted len (bitencLoop len space s).cursor = _
  rw [bitencLoop_eq_emitBits, emitBits_cursor]
  rfl
@[simp] theorem bitenc_done : (bitenc len space s).wires.done = s.wires.done := by
  simp [bitenc, bitencLoop_eq_emitBits]
@[simp] theorem bitenc_rstExhausted : (bitenc len space s).wires.rstExhausted = s.wires.rstExhausted := by
  simp [bitenc, bitencLoop_eq_emitBits]
@[simp] theorem bitenc_pending : (bitenc len space s).pending = s.pending := by
  simp [bitenc, bitencLoop_eq_emitBits]
@[simp] theorem bitenc_freeTick : (bitenc len space s).freeTick = s.freeTick + 1 := rfl
end bitenc

/-- The words an `RSTENC` appends: `[SR]` where there is a slot, else none (42_reset_latch_encoder.md R151). -/
def rstencWords (space : Nat) (s : State) : List Word := if 1 ≤ space then [s.cfg.romWord .sr] else []

section rstenc
variable (space : Nat) (s : State)
@[simp] theorem rstenc_phase : (rstenc space s).phase = s.phase := by unfold rstenc; split <;> rfl
@[simp] theorem rstenc_cursor : (rstenc space s).cursor = s.cursor := by unfold rstenc; split <;> rfl
@[simp] theorem rstenc_cfg : (rstenc space s).cfg = s.cfg := by unfold rstenc; split <;> rfl
@[simp] theorem rstenc_inMem : (rstenc space s).inMem = s.inMem := by unfold rstenc; split <;> rfl
@[simp] theorem rstenc_outMem : (rstenc space s).outMem = s.outMem ++ rstencWords space s := by
  by_cases h : 1 ≤ space <;> simp [rstenc, rstencWords, h]
@[simp] theorem rstenc_out : (rstenc space s).outputs.out = s.outputs.out ++ rstencWords space s := by
  by_cases h : 1 ≤ space <;> simp [rstenc, rstencWords, h]
@[simp] theorem rstenc_nSyms :
    (rstenc space s).outputs.nSyms = s.outputs.nSyms + (rstencWords space s).length := by
  by_cases h : 1 ≤ space <;> simp [rstenc, rstencWords, h]
@[simp] theorem rstenc_status : (rstenc space s).outputs.status = s.outputs.status := by
  unfold rstenc; split <;> rfl
@[simp] theorem rstenc_done : (rstenc space s).wires.done = decide (1 ≤ space) := rfl
@[simp] theorem rstenc_rstExhausted : (rstenc space s).wires.rstExhausted = decide (space = 0) := rfl
@[simp] theorem rstenc_consumed : (rstenc space s).wires.consumed = s.wires.consumed := by
  unfold rstenc; split <;> rfl
@[simp] theorem rstenc_bitExhausted : (rstenc space s).wires.bitExhausted = s.wires.bitExhausted := by
  unfold rstenc; split <;> rfl
@[simp] theorem rstenc_pending : (rstenc space s).pending = s.pending := by unfold rstenc; split <;> rfl
@[simp] theorem rstenc_freeTick : (rstenc space s).freeTick = s.freeTick := by unfold rstenc; split <;> rfl
end rstenc

end Sys2Proof.Machine
end

