-- ==== Sys2Proof/Laws/Memory.lean ====
section
/-! SUPPORT. The address space `IN`: reading back what the host presented, and the canonical form. -/

namespace Sys2Proof.Machine

/-- A buffer placed from index `k` on reads back (20_memory.md R51). -/
theorem Memory.read_ofBytesFrom (k : Nat) (data : List Byte) (a : Nat) :
    Memory.read (Memory.ofBytesFrom k data) a = if k ≤ a then data[a - k]? else none := by
  induction data generalizing k with
  | nil => simp [Memory.ofBytesFrom, Memory.read]
  | cons b bs ih =>
    simp only [Memory.ofBytesFrom, Memory.read, ih]
    rcases Nat.lt_trichotomy k a with h | h | h
    · have hsub : a - k = (a - (k + 1)) + 1 := by omega
      rw [if_neg (by omega), if_pos (by omega), if_pos (by omega), hsub, List.getElem?_cons_succ]
    · subst h; simp
    · rw [if_neg (by omega), if_neg (by omega), if_neg (by omega)]

/-- `DATA[a]` of a presented buffer (20_memory.md R51). -/
theorem Memory.read_ofBytes (data : List Byte) (a : Nat) : Memory.read (Memory.ofBytes data) a = data[a]? := by
  simp [Memory.ofBytes, Memory.read_ofBytesFrom]

/-- The cells of a buffer placed at `k` lie at `k` or above. -/
theorem Memory.le_of_mem_ofBytesFrom {k : Nat} {data : List Byte} {c : Host.Cell}
    (h : c ∈ Memory.ofBytesFrom k data) : k ≤ c.1 := by
  induction data generalizing k with
  | nil => simp [Memory.ofBytesFrom] at h
  | cons b bs ih =>
    rcases List.mem_cons.mp h with rfl | h
    · exact Nat.le_refl _
    · exact Nat.le_of_succ_le (ih h)

/-- Presenting a buffer leaves `IN` in its canonical form. -/
theorem Memory.wf_ofBytes (data : List Byte) : Memory.wf (Memory.ofBytes data) = true := by
  suffices h : ∀ k, (Memory.ofBytesFrom k data).Pairwise fun x y => x.1 < y.1 from decide_eq_true (h 0)
  induction data with
  | nil => exact fun _ => List.Pairwise.nil
  | cons b bs ih =>
    exact fun k => List.Pairwise.cons (fun c hc => Memory.le_of_mem_ofBytesFrom hc) (ih (k + 1))

/-- Taking a host operation keeps the canonical form of `IN`. -/
theorem State.sample_wf {s : State} (h : s.inMem.wf = true) (op : HostOp) (rest : List HostOp) :
    (s.sample op rest).inMem.wf = true := by
  rw [State.sample_inMem]
  cases op.data with
  | none => exact h
  | some d => exact Memory.wf_ofBytes d

end Sys2Proof.Machine
end

