-- ==== Sys2Proof/Laws/Rom.lean ====
section
/-! SUPPORT. The Symbol ROM: words and Symbols correspond, and the contents of a legal configuration. -/

namespace Sys2Proof

/-- The bits of a symbol word, field by field (30_encoding.md R80). -/
theorem Symbol.getLsbD_toWord (y : Symbol) (i : Nat) : y.toWord.getLsbD i =
    if i < 15 then y.duration0.getLsbD i
    else if i = 15 then y.level0
    else if i < 31 then y.duration1.getLsbD (i - 16)
    else if i = 31 then y.level1 else false := by
  simp only [Symbol.toWord, BitVec.getLsbD_append, BitVec.getLsbD_ofBool]
  split_ifs <;> first | rfl | omega | simp_all <;> omega

/-- A Symbol is read back from its word (30_encoding.md R80). -/
theorem Symbol.ofWord_toWord (y : Symbol) : Symbol.ofWord y.toWord = y := by
  cases y with
  | mk l0 d0 l1 d1 =>
    simp only [Symbol.ofWord, Symbol.mk.injEq]
    refine ⟨?_, ?_, ?_, ?_⟩
    · rw [Symbol.getLsbD_toWord]; simp
    · apply BitVec.eq_of_getLsbD_eq
      intro i hi
      rw [BitVec.getLsbD_extractLsb', Symbol.getLsbD_toWord]
      simp [hi]
    · rw [Symbol.getLsbD_toWord]; simp
    · apply BitVec.eq_of_getLsbD_eq
      intro i hi
      rw [BitVec.getLsbD_extractLsb', Symbol.getLsbD_toWord, if_neg (by omega), if_neg (by omega), if_pos (by omega)]
      simp [hi]

/-- A word is assembled back from its Symbol (30_encoding.md R80). -/
theorem Symbol.toWord_ofWord (w : Word) : (Symbol.ofWord w).toWord = w := by
  apply BitVec.eq_of_getLsbD_eq
  intro i hi
  rw [Symbol.getLsbD_toWord]
  simp only [Symbol.ofWord, BitVec.getLsbD_extractLsb', Nat.zero_add]
  split_ifs with h1 h2 h3 h4
  · simp [h1]
  · rw [h2]
  · rw [show 16 + (i - 16) = i by omega]; simp [show i - 16 < 15 by omega]
  · rw [h4]
  · omega

/-- Different Symbols have different words. -/
theorem Symbol.toWord_injective {x y : Symbol} (h : x.toWord = y.toWord) : x = y := by
  rw [← Symbol.ofWord_toWord x, h, Symbol.ofWord_toWord]

/-- What a legal configuration satisfies, as one proposition (00_scope.md R8). -/
theorem Config.legal_iff (cfg : Config) : cfg.legal = true ↔
    (1 ≤ cfg.tickNs ∧ 2 ≤ cfg.lenW ∧ 1 ≤ cfg.spaceW) ∧
    (1 ≤ cfg.ticks cfg.t0hNs ∧ cfg.ticks cfg.t0hNs ≤ 32767) ∧
    (1 ≤ cfg.ticks cfg.t0lNs ∧ cfg.ticks cfg.t0lNs ≤ 32767) ∧
    (1 ≤ cfg.ticks cfg.t1hNs ∧ cfg.ticks cfg.t1hNs ≤ 32767) ∧
    (1 ≤ cfg.ticks cfg.t1lNs ∧ cfg.ticks cfg.t1lNs ≤ 32767) ∧
    cfg.ticks cfg.t0hNs < cfg.ticks cfg.t1hNs ∧
    (cfg.ticks cfg.rst0Ns ≤ 32767 ∧ cfg.ticks cfg.rst1Ns ≤ 32767) ∧
    1 ≤ cfg.ticks cfg.rst0Ns + cfg.ticks cfg.rst1Ns := by
  simp [Config.legal, and_assoc]

/-- A duration that fits its field is held exactly (30_encoding.md R86). -/
theorem Config.duration_toNat {cfg : Config} {ns : Nat} (h : cfg.ticks ns ≤ 32767) :
    (cfg.duration ns).toNat = cfg.ticks ns := by
  simp only [Config.duration, BitVec.toNat_ofNat]
  exact Nat.mod_eq_of_lt (by omega)

/-- The Symbol a ROM word denotes is the ROM's Symbol. -/
theorem Config.ofWord_romWord (cfg : Config) (e : RomIndex) : Symbol.ofWord (cfg.romWord e) = cfg.romSymbol e :=
  Symbol.ofWord_toWord _

/-- In a legal configuration the three ROM words differ (40_symbol_rom.md R112, R113). -/
theorem Config.romWord_injective {cfg : Config} (h : cfg.legal = true) {e f : RomIndex}
    (hw : cfg.romWord e = cfg.romWord f) : e = f := by
  have hs := Symbol.toWord_injective hw
  obtain ⟨-, ⟨-, h0⟩, -, ⟨-, h1⟩, -, hlt, -, -⟩ := (Config.legal_iff cfg).mp h
  have hd : cfg.duration cfg.t0hNs ≠ cfg.duration cfg.t1hNs := fun hd => by
    have := congrArg BitVec.toNat hd
    rw [Config.duration_toNat h0, Config.duration_toNat h1] at this
    omega
  cases e <;> cases f <;> simp_all [Config.romSymbol]

/-- The entry a data bit selects stands at the address formed from it (30_encoding.md R85). -/
theorem RomIndex.ofAddr_romAddrOfBit (b : Bool) : RomIndex.ofAddr (romAddrOfBit b) = some (RomIndex.ofBit b) := by
  cases b <;> decide

/-- Every entry is one of the ROM's words. -/
theorem Config.romWord_mem (cfg : Config) (e : RomIndex) : cfg.romWord e ∈ cfg.romWords := by
  cases e <;> simp [Config.romWords]

/-- In a legal configuration no bit symbol is the reset symbol. -/
theorem Config.romWord_ofBit_ne {cfg : Config} (h : cfg.legal = true) (b : Bool) :
    cfg.romWord (RomIndex.ofBit b) ≠ cfg.romWord .sr := fun hw => by
  have := Config.romWord_injective h hw
  cases b <;> simp [RomIndex.ofBit] at this

namespace Machine

/-- The words of input bits are ROM words (30_encoding.md R81). -/
theorem State.nextWords_alphabet (s : State) (n : Nat) : ∀ w ∈ s.nextWords n, w ∈ s.cfg.romWords := by
  intro w hw
  obtain ⟨k, -, rfl⟩ := List.mem_map.mp hw
  exact Config.romWord_mem _ _

/-- The reset symbol is not among the words of input bits. -/
theorem State.sr_notMem_nextWords {s : State} (h : s.cfg.legal = true) (n : Nat) :
    s.cfg.romWord .sr ∉ s.nextWords n := by
  intro hw
  obtain ⟨k, -, hk⟩ := List.mem_map.mp hw
  exact Config.romWord_ofBit_ne h _ hk

end Machine

end Sys2Proof
end

