-- ==== Sys2Proof/Laws/PerInstr.lean ====
section
/-! SUPPORT. Per-instruction facts, one lemma for each constructor. -/

/-- The word of an instruction, where it has one, has the mask and match of its row of spec/opcode_table.json. -/
def Sys2Proof.Laws.WordFormat.Statement (i : Sys2Proof.Instr) : Prop :=
  ∀ (cfg : Sys2Proof.Config) (w : Sys2Proof.Word), Sys2Proof.encode cfg i = some w →
    ∃ mask, ∃ value, i.maskMatch = some (mask, value) ∧ w &&& mask = value

namespace Sys2Proof.Laws.WordFormat

/-- A packed command word has its `cmd` value in bits 1:0. -/
theorem packCommand_and_mask (cmd : BitVec 2) (p : Operands) :
    packCommand cmd p &&& 0x00000003#32 = cmd.setWidth 32 := by
  have hm : ∀ i, (0x00000003#32).getLsbD i = decide (i < 2) := fun i => by
    rw [show (0x00000003#32) = (BitVec.allOnes 2).setWidth 32 by decide, BitVec.getLsbD_setWidth, BitVec.getLsbD_allOnes]
    by_cases h : i < 2
    · simp [h, show i < 32 by omega]
    · simp [h]
  apply BitVec.eq_of_getLsbD_eq
  intro i hi
  rw [BitVec.getLsbD_and, hm, getLsbD_packCommand, BitVec.getLsbD_setWidth]
  by_cases h : i < 2
  · simp [h, hi]
  · simp [h, BitVec.getLsbD_of_ge cmd i (by omega)]

/-- A command's word, from the word of its `cmd` value. -/
theorem of_packCommand {i : Instr} (cmd : BitVec 2) {p : Operands}
    (he : ∀ cfg, encode cfg i = if p.fitsWord then some (packCommand cmd p) else none)
    (hm : i.maskMatch = some (0x00000003#32, cmd.setWidth 32)) : Statement i := by
  intro cfg w h
  rw [he] at h
  split at h
  · injection h with h
    exact ⟨_, _, hm, h ▸ packCommand_and_mask cmd p⟩
  · cases h

/-- The two level bits of a symbol word. -/
theorem toWord_and_mask (y : Symbol) : y.toWord &&& 0x80008000#32 =
    (⟨y.level0, 0#15, y.level1, 0#15⟩ : Symbol).toWord := by
  have hm : (0x80008000#32) = (⟨true, 0#15, true, 0#15⟩ : Symbol).toWord := by decide
  apply BitVec.eq_of_getLsbD_eq
  intro i hi
  rw [BitVec.getLsbD_and, hm, Symbol.getLsbD_toWord, Symbol.getLsbD_toWord, Symbol.getLsbD_toWord]
  split_ifs <;> simp

theorem nop (p : Operands) : Statement (.nop p) := of_packCommand 0#2 (fun _ => rfl) rfl
theorem encode (p : Operands) : Statement (.encode p) := of_packCommand 1#2 (fun _ => rfl) rfl
theorem reset (p : Operands) : Statement (.reset p) := of_packCommand 2#2 (fun _ => rfl) rfl
theorem reservedCmd3 (p : Operands) : Statement (.reservedCmd3 p) := of_packCommand 3#2 (fun _ => rfl) rfl
theorem bitenc (len space : Nat) : Statement (.bitenc len space) := fun _ _ h => nomatch h
theorem rstenc (space : Nat) : Statement (.rstenc space) := fun _ _ h => nomatch h
theorem romread (addr : BitVec 2) : Statement (.romread addr) := fun _ _ h => nomatch h

theorem sym0 : Statement .sym0 := by
  intro cfg w h
  injection h with h
  have hv : (⟨true, 0#15, false, 0#15⟩ : Symbol).toWord = 0x00008000#32 := by decide
  exact ⟨_, _, rfl, h ▸ (toWord_and_mask _).trans hv⟩

theorem sym1 : Statement .sym1 := by
  intro cfg w h
  injection h with h
  have hv : (⟨true, 0#15, false, 0#15⟩ : Symbol).toWord = 0x00008000#32 := by decide
  exact ⟨_, _, rfl, h ▸ (toWord_and_mask _).trans hv⟩

theorem symr : Statement .symr := by
  intro cfg w h
  injection h with h
  have hv : (⟨false, 0#15, false, 0#15⟩ : Symbol).toWord = 0x00000000#32 := by decide
  exact ⟨_, _, rfl, h ▸ (toWord_and_mask _).trans hv⟩

end Sys2Proof.Laws.WordFormat
end

