-- ==== Sys2Proof/Laws/Transmission.lean ====
section
/-! SUPPORT. What `ENCODE` can do, said once: the two phases as equations, then every way it answers. -/

namespace Sys2Proof.Machine

/-- The phase `EMIT_RESET`: `RSTENC` either completes the transmission or is out of space, never neither. -/
theorem resetPhase_eq (space : Nat) (s : State) : resetPhase space s =
    if 1 ≤ space then .next ((rstenc space s).toIdle.respond Status.completeOnly)
    else .next ((rstenc space s).respond Status.memFullOnly) := by
  by_cases h : 1 ≤ space
  · simp [resetPhase, h]
  · simp [resetPhase, show space = 0 by omega]

/-- The state in which the reset phase follows a finished data phase: `PHASE <- EMIT_RESET` (R170). -/
def afterData (p : Operands) (s : State) : State :=
  { bitenc p.len p.space s.clearOut with phase := .emitReset }

section afterData
variable (p : Operands) (s : State)
@[simp] theorem afterData_phase : (afterData p s).phase = .emitReset := rfl
@[simp] theorem afterData_cursor : (afterData p s).cursor = s.cursor + min p.space (8 * p.len - s.cursor) := by
  simp [afterData, bitencCount]
@[simp] theorem afterData_cfg : (afterData p s).cfg = s.cfg := by simp [afterData]
@[simp] theorem afterData_inMem : (afterData p s).inMem = s.inMem := by simp [afterData]
@[simp] theorem afterData_outMem :
    (afterData p s).outMem = s.outMem ++ s.nextWords (min p.space (8 * p.len - s.cursor)) := by
  simp [afterData, bitencCount]
@[simp] theorem afterData_out :
    (afterData p s).outputs.out = s.nextWords (min p.space (8 * p.len - s.cursor)) := by
  simp [afterData, bitencCount]
@[simp] theorem afterData_nSyms : (afterData p s).outputs.nSyms = min p.space (8 * p.len - s.cursor) := by
  simp [afterData, bitencCount]
@[simp] theorem afterData_pending : (afterData p s).pending = s.pending := by simp [afterData]
@[simp] theorem afterData_freeTick : (afterData p s).freeTick = s.freeTick + 1 := rfl
end afterData

/-- The phase `EMIT_DATA`: out of space with bits owed, or on to the reset phase with what is left (R169 to R171). -/
theorem dataPhase_eq (p : Operands) (s : State) : dataPhase p.len p.space s.clearOut =
    if p.space < 8 * p.len - s.cursor then
      .next ((bitenc p.len p.space s.clearOut).respond Status.memFullOnly)
    else resetPhase (p.space - (8 * p.len - s.cursor)) (afterData p s) := by
  unfold dataPhase afterBitenc
  by_cases h : p.space < 8 * p.len - s.cursor
  · have h1 : s.cursor + min p.space (8 * p.len - s.cursor) < 8 * p.len := by omega
    simp [h, h1, bitencCount]
  · have h1 : ¬ s.cursor + (8 * p.len - s.cursor) < 8 * p.len := by omega
    have h2 : 8 * p.len ≤ s.cursor + (8 * p.len - s.cursor) := by omega
    have h3 : min p.space (8 * p.len - s.cursor) = 8 * p.len - s.cursor := by omega
    simp only [bitenc_bitExhausted, bitenc_consumed, bitenc_nSyms, bitencCount, State.clearOut_cursor,
      State.clearOut_outputs, decide_eq_true_eq, h3, if_neg h1, if_pos h2, if_neg h, Nat.zero_add]
    rfl

/-- Every way an `ENCODE` answers: the failure path, and the five rows of 43_transmission_state_machine.md R182. -/
theorem execEncode_cases {p : Operands} {s t : State} (h : execEncode p s = .next t) : s.cfg.legal = true ∧
    ((encodeFails s.cfg p.dataValid = true ∧ t = s.failurePath) ∨
     (encodeFails s.cfg p.dataValid = false ∧
       ((s.phase = .emitData ∧ p.space < 8 * p.len - s.cursor ∧
          t = (bitenc p.len p.space s.clearOut).respond Status.memFullOnly) ∨
        (s.phase = .emitData ∧ p.space = 8 * p.len - s.cursor ∧
          t = (rstenc 0 (afterData p s)).respond Status.memFullOnly) ∨
        (s.phase = .emitData ∧ 8 * p.len - s.cursor < p.space ∧
          t = (rstenc (p.space - (8 * p.len - s.cursor)) (afterData p s)).toIdle.respond Status.completeOnly) ∨
        (s.phase = .emitReset ∧ p.space = 0 ∧ t = (rstenc 0 s.clearOut).respond Status.memFullOnly) ∨
        (s.phase = .emitReset ∧ 1 ≤ p.space ∧
          t = (rstenc p.space s.clearOut).toIdle.respond Status.completeOnly)))) := by
  obtain ⟨hl, h⟩ := requireLegal_next.mp h
  refine ⟨hl, ?_⟩
  cases hf : encodeFails s.cfg p.dataValid with
  | true => simp [hf] at h; exact .inl ⟨rfl, h.symm⟩
  | false =>
    refine .inr ⟨rfl, ?_⟩
    cases hp : s.phase with
    | emitData =>
      simp only [hf, hp, dataPhase_eq, resetPhase_eq, Bool.false_eq_true, if_false] at h
      split at h
      · injection h with h; exact .inl ⟨rfl, ‹_›, h.symm⟩
      · split at h
        · injection h with h; exact .inr (.inr (.inl ⟨rfl, by omega, h.symm⟩))
        · have h0 : p.space - (8 * p.len - s.cursor) = 0 := by omega
          rw [h0] at h
          injection h with h; exact .inr (.inl ⟨rfl, by omega, h.symm⟩)
    | emitReset =>
      simp only [hf, hp, resetPhase_eq, Bool.false_eq_true, if_false] at h
      split at h
      · injection h with h; exact .inr (.inr (.inr (.inr ⟨rfl, ‹_›, h.symm⟩)))
      · have h0 : p.space = 0 := by omega
        rw [h0] at h
        injection h with h; exact .inr (.inr (.inr (.inl ⟨rfl, h0, h.symm⟩)))

/-- In a legal configuration an `ENCODE` always answers a next state (60_exceptions.md R200). -/
theorem execEncode_next (p : Operands) {s : State} (hl : s.cfg.legal = true) : ∃ t, execEncode p s = .next t := by
  unfold execEncode
  rw [requireLegal_of_legal hl]
  split
  · exact ⟨_, rfl⟩
  · split
    · rw [dataPhase_eq]
      split
      · exact ⟨_, rfl⟩
      · rw [resetPhase_eq]; split <;> exact ⟨_, rfl⟩
    · rw [resetPhase_eq]; split <;> exact ⟨_, rfl⟩

end Sys2Proof.Machine
end

