-- ==== Sys2Proof/Laws/Step.lean ====
section
/-! SUPPORT. Everything a step can do, said once: which command runs, and what each command answers. -/

namespace Sys2Proof.Machine

/-- A ready block, unfolded once (70_reset_and_hazards.md R233). -/
theorem State.ready_iff (s : State) :
    s.ready = true ↔ s.cfg.legal = true ∧ s.cfg.bitencOk = true ∧ s.cfg.rstencOk = true := by
  simp [State.ready, and_assoc]

/-- Readiness depends on the configuration only. -/
theorem State.ready_congr {s t : State} (h : t.cfg = s.cfg) : t.ready = s.ready := by simp only [State.ready, h]

/-- A ready block that is presented an input answers, and by one of the five rows of R182. -/
theorem execEncode_of_ready (p : Operands) {s : State} (h : s.ready = true) (hv : p.dataValid = true) :
    ∃ t, execEncode p s = .next t ∧
      ((s.phase = .emitData ∧ p.space < 8 * p.len - s.cursor ∧
          t = (bitenc p.len p.space s.clearOut).respond Status.memFullOnly) ∨
        (s.phase = .emitData ∧ p.space = 8 * p.len - s.cursor ∧
          t = (rstenc 0 (afterData p s)).respond Status.memFullOnly) ∨
        (s.phase = .emitData ∧ 8 * p.len - s.cursor < p.space ∧
          t = (rstenc (p.space - (8 * p.len - s.cursor)) (afterData p s)).toIdle.respond Status.completeOnly) ∨
        (s.phase = .emitReset ∧ p.space = 0 ∧ t = (rstenc 0 s.clearOut).respond Status.memFullOnly) ∨
        (s.phase = .emitReset ∧ 1 ≤ p.space ∧
          t = (rstenc p.space s.clearOut).toIdle.respond Status.completeOnly)) := by
  obtain ⟨hl, hb, hr⟩ := s.ready_iff.mp h
  obtain ⟨t, ht⟩ := execEncode_next p hl
  refine ⟨t, ht, ?_⟩
  obtain ⟨-, hf | hf⟩ := execEncode_cases ht
  · rw [State.encodeFails_of_ready hb hr hv] at hf
    exact absurd hf.1 Bool.false_ne_true
  · exact hf.2

/-- Whether a non-failing `ENCODE` completes the transmission (43_transmission_state_machine.md R182). -/
def encodeDone (p : Operands) (s : State) : Bool :=
  match s.phase with
  | .emitData => decide (8 * p.len - s.cursor < p.space)
  | .emitReset => decide (1 ≤ p.space)

/-- The words a non-failing `ENCODE` emits (R182). -/
def encodeWords (p : Operands) (s : State) : List Word :=
  (match s.phase with
    | .emitData => s.nextWords (min p.space (8 * p.len - s.cursor))
    | .emitReset => []) ++
  if encodeDone p s then [s.cfg.romWord .sr] else []

/-- `PHASE` after a non-failing `ENCODE` (R182). -/
def encodePhase (p : Operands) (s : State) : Phase :=
  if encodeDone p s then .emitData
  else match s.phase with
    | .emitData => if p.space < 8 * p.len - s.cursor then .emitData else .emitReset
    | .emitReset => .emitReset

/-- `CURSOR` after a non-failing `ENCODE` (R182). -/
def encodeCursor (p : Operands) (s : State) : Nat :=
  if encodeDone p s then 0
  else match s.phase with
    | .emitData => s.cursor + min p.space (8 * p.len - s.cursor)
    | .emitReset => s.cursor

/-- A non-failing `ENCODE`, field by field: the five rows of R182 in one. -/
theorem execEncode_summary (p : Operands) {s : State} (h : s.ready = true) (hv : p.dataValid = true) :
    ∃ t, execEncode p s = .next t ∧ t.phase = encodePhase p s ∧ t.cursor = encodeCursor p s ∧
      t.outMem = s.outMem ++ encodeWords p s ∧
      t.outputs = ⟨encodeWords p s, (encodeWords p s).length,
        if encodeDone p s then Status.completeOnly else Status.memFullOnly⟩ ∧
      t.cfg = s.cfg ∧ t.inMem = s.inMem ∧ t.pending = s.pending ∧
      t.freeTick = s.freeTick + (if s.phase = .emitData then 1 else 0) := by
  obtain ⟨t, ht, hc⟩ := execEncode_of_ready p h hv
  refine ⟨t, ht, ?_⟩
  rcases hc with ⟨hp, hs, rfl⟩ | ⟨hp, hs, rfl⟩ | ⟨hp, hs, rfl⟩ | ⟨hp, hs, rfl⟩ | ⟨hp, hs, rfl⟩
  · have hd : encodeDone p s = false := by simp only [encodeDone, hp, decide_eq_false_iff_not]; omega
    simp [encodePhase, encodeCursor, encodeWords, hd, hp, hs, bitencCount]
  · have hd : encodeDone p s = false := by simp only [encodeDone, hp, decide_eq_false_iff_not]; omega
    have hn : ¬ p.space < 8 * p.len - s.cursor := by omega
    simp [encodePhase, encodeCursor, encodeWords, hd, hp, hn, rstencWords]
  · have hd : encodeDone p s = true := by simp only [encodeDone, hp, decide_eq_true_eq]; omega
    have h1 : 1 ≤ p.space - (8 * p.len - s.cursor) := by omega
    simp [encodePhase, encodeCursor, encodeWords, hd, hp, h1, rstencWords]
  · have hd : encodeDone p s = false := by simp only [encodeDone, hp, decide_eq_false_iff_not]; omega
    simp [encodePhase, encodeCursor, encodeWords, hd, hp, rstencWords]
  · have hd : encodeDone p s = true := by simp only [encodeDone, hp, decide_eq_true_eq]; omega
    simp [encodePhase, encodeCursor, encodeWords, hd, hp, hs, rstencWords]

/-- The failure path, as an equation (60_exceptions.md R201). -/
theorem execEncode_of_encodeFails {p : Operands} {s : State} (hl : s.cfg.legal = true)
    (hf : encodeFails s.cfg p.dataValid = true) : execEncode p s = .next s.failurePath := by
  rw [execEncode, requireLegal_of_legal hl, if_pos hf]

/-- In a legal configuration an `ENCODE` either fails or is ready and presented an input (R201). -/
theorem encodeFails_or_ready (p : Operands) {s : State} (hl : s.cfg.legal = true) :
    encodeFails s.cfg p.dataValid = true ∨ (s.ready = true ∧ p.dataValid = true) := by
  rw [s.ready_iff]
  cases hb : s.cfg.bitencOk <;> cases hr : s.cfg.rstencOk <;> cases hv : p.dataValid <;> simp [encodeFails, *]

/-- Everything a command can answer: `NOP`, `RESET`, and `ENCODE`; the reserved one answers nothing. -/
theorem exec_command_next {i : Instr} (hc : i.isCommand = true) {s t : State} (h : exec i s = .next t) :
    s.cfg.legal = true ∧
    ((∃ p, i = .nop p ∧ t = s.returnNothing Status.none) ∨
     (∃ p, i = .reset p ∧ t = s.toIdle.returnNothing Status.none) ∨
     (∃ p, i = .encode p ∧ execEncode p s = .next t)) := by
  cases i with
  | nop p =>
    obtain ⟨hl, h⟩ := requireLegal_next.mp h
    injection h with h
    exact ⟨hl, .inl ⟨p, rfl, h.symm⟩⟩
  | reset p =>
    obtain ⟨hl, h⟩ := requireLegal_next.mp h
    injection h with h
    exact ⟨hl, .inr (.inl ⟨p, rfl, h.symm⟩)⟩
  | encode p => exact ⟨(execEncode_cases h).1, .inr (.inr ⟨p, rfl, h⟩)⟩
  | reservedCmd3 p => cases h
  | bitenc _ _ => cases hc
  | rstenc _ => cases hc
  | romread _ => cases hc
  | sym0 => cases hc
  | sym1 => cases hc
  | symr => cases hc

/-- Only commands are decoded from what the host presents (30_encoding.md R87). -/
theorem Command.isCommand_of_decode {c : Command} {i : Instr} (h : c.decode = .ok i) : i.isCommand = true := by
  cases c with
  | ports cmd p => injection h with h; exact h ▸ isCommand_decodePorts cmd p
  | word w =>
    simp only [Command.decode, decodeWord] at h
    split at h
    · injection h with h; exact h ▸ isCommand_decodePorts _ _
    · cases h

/-- Every way a step answers a next state: no command, hardware reset, or a well-formed decoded command. -/
theorem step_next_cases {s t : State} (h : step s = .next t) :
    (s.pending = [] ∧ exec noCommand s = .next t) ∨
    (∃ op rest, s.pending = op :: rest ∧ op.hwReset = true ∧ s.cfg.legal = true ∧ t = (s.sample op rest).hwReset) ∨
    (∃ op rest i, s.pending = op :: rest ∧ op.hwReset = false ∧ op.command.decode = .ok i ∧
      i.isCommand = true ∧ i.wellFormed s.cfg = true ∧ exec i (s.sample op rest) = .next t) := by
  unfold step at h
  cases hp : s.pending with
  | nil => rw [hp] at h; exact .inl ⟨rfl, h⟩
  | cons op rest =>
    simp only [hp, runOp] at h
    cases hr : op.hwReset with
    | true =>
      simp only [hr, if_true] at h
      obtain ⟨hl, h⟩ := requireLegal_next.mp h
      rw [State.sample_cfg] at hl
      injection h with h
      exact .inr (.inl ⟨op, rest, rfl, hr, hl, h.symm⟩)
    | false =>
      simp only [hr, Bool.false_eq_true, if_false, runCommand] at h
      split at h
      · cases h
      · rename_i i hi
        split at h
        · rename_i hw
          rw [State.sample_cfg] at hw
          exact .inr (.inr ⟨op, rest, i, rfl, hr, hi, Command.isCommand_of_decode hi, hw, h⟩)
        · cases h

end Sys2Proof.Machine
end

