-- ==== Sys2Proof/Laws/Waveform.lean ====
section
/-! SUPPORT. The line: what a waveform, a stretch and a sequence of stretches look like. -/

namespace Sys2Proof

@[simp] theorem wave_nil : wave [] = [] := rfl

@[simp] theorem wave_append (ws vs : List Word) : wave (ws ++ vs) = wave ws ++ wave vs := List.flatMap_append

@[simp] theorem line_nil : line [] = [] := rfl

@[simp] theorem line_cons (f : Stretch) (fs : List Stretch) : line (f :: fs) = f.line ++ line fs := List.flatMap_cons

@[simp] theorem line_append (fs gs : List Stretch) : line (fs ++ gs) = line fs ++ line gs := List.flatMap_append

@[simp] theorem Stretch.length_line (f : Stretch) : f.line.length = f.idle + (wave f.words).length := by
  simp [Stretch.line]

/-- Before the first stretch the line is idle. -/
theorem lineLevel_of_neg (fs : List Stretch) {t : Int} (h : t < 0) : lineLevel fs t = idleLevel :=
  if_neg (by omega)

/-- At a tick of the stretches the level is the one listed there. -/
theorem lineLevel_natCast (fs : List Stretch) (n : Nat) : lineLevel fs n = ((line fs)[n]?).getD idleLevel := by
  simp [lineLevel]

/-- After the last stretch the line is idle. -/
theorem lineLevel_of_length_le (fs : List Stretch) {t : Int} (h : (line fs).length ≤ t) :
    lineLevel fs t = idleLevel := by
  obtain ⟨n, rfl⟩ := Int.eq_ofNat_of_zero_le (show 0 ≤ t by omega)
  rw [lineLevel_natCast, List.getElem?_eq_none (by omega), Option.getD_none]

/-- A stretch and what stands before it: the ticks from the end of `before` on are the stretch's own. -/
theorem lineLevel_stretch (before after : List Stretch) (f : Stretch) {k : Nat} (h : k < f.line.length) :
    lineLevel (before ++ f :: after) ((line before).length + k : Nat) = (f.line[k]?).getD idleLevel := by
  rw [lineLevel_natCast, line_append, line_cons, List.getElem?_append_right (by omega), Nat.add_sub_cancel_left,
    List.getElem?_append_left h]

/-- Before the first symbol of a stretch the line is idle. -/
theorem lineLevel_idle (before after : List Stretch) (f : Stretch) {t : Int} (h : (line before).length ≤ t)
    (h' : t < (line before).length + f.idle) : lineLevel (before ++ f :: after) t = idleLevel := by
  obtain ⟨n, rfl⟩ := Int.eq_ofNat_of_zero_le (show 0 ≤ t by omega)
  obtain ⟨k, rfl⟩ := Nat.exists_eq_add_of_le (show (line before).length ≤ n by omega)
  have hk : k < f.idle := by omega
  rw [lineLevel_stretch before after f (by rw [Stretch.length_line]; omega), Stretch.line,
    List.getElem?_append_left (by rw [List.length_replicate]; exact hk), List.getElem?_replicate, if_pos hk,
    Option.getD_some]

/-- At the ticks of a stretch's words the level is that of their waveform. -/
theorem lineLevel_words (before after : List Stretch) (f : Stretch) {k : Nat} (h : k < (wave f.words).length) :
    lineLevel (before ++ f :: after) ((line before).length + f.idle + k : Nat) =
      ((wave f.words)[k]?).getD idleLevel := by
  rw [Nat.add_assoc, lineLevel_stretch before after f (by rw [Stretch.length_line]; omega), Stretch.line,
    List.getElem?_append_right (by rw [List.length_replicate]; omega), List.length_replicate, Nat.add_sub_cancel_left]

/-- A transmission that is played after the stretches `fs` is one more stretch (20_memory.md R62). -/
theorem Machine.State.playedAs_append {s t : Machine.State} {fs : List Stretch} (h : s.playedAs fs)
    {ws : List Word} (ht : t.outMem = s.outMem ++ ws) (idle : Nat) : t.playedAs (fs ++ [⟨idle, ws⟩]) := by
  simp only [Machine.State.playedAs] at *
  simp [ht, h]

/-- With no idle time the line is the waveform of everything on `OUT`. -/
theorem Machine.State.line_of_no_idle {s : Machine.State} {fs : List Stretch} (h : s.playedAs fs)
    (hi : ∀ f ∈ fs, f.idle = 0) : line fs = s.waveform := by
  rw [Machine.State.waveform, h]
  clear h
  induction fs with
  | nil => rfl
  | cons f fs ih =>
    rw [line_cons, ih fun g hg => hi g (List.mem_cons_of_mem f hg), List.flatMap_cons, wave_append, Stretch.line,
      hi f List.mem_cons_self, List.replicate_zero, List.nil_append]

end Sys2Proof
end

