-- ==== Sys2Proof/Tests/Slice0.lean ====
section
/-! SUPPORT. Tests against the vectors of 95_test_vectors.md and the worked examples, the smoke tests of WellFormed, and
for every statement with hypotheses a concrete state and operands that meet them (`witness_…`), clause by clause. -/

namespace Sys2Proof.Tests

open Sys2Proof.Machine

/-- `S0`, `S1`, `SR` of the reference configuration, as the head of 95_test_vectors.md gives them. -/
def S0 : Word := 0x00118008#32
def S1 : Word := 0x00098010#32
def SR : Word := 0x0FA00001#32

/-- A state as the vectors write it, `(PHASE, CURSOR)`, with the host's buffer presented. -/
def at_ (ph : Phase) (c : Nat) (data : List Byte) : State :=
  { State.reset with phase := ph, cursor := c, inMem := Memory.ofBytes data }

/-- The wire bytes of `setColor("red", 255)` (43_transmission_state_machine.md R184). -/
def red : List Byte := [0x00#8, 0xFF#8, 0x00#8]

/-- The buffer of the vectors of `BITENC`. -/
def mixed : List Byte := [0x12#8, 0xA5#8, 0xFF#8]

def enc (len space : Nat) : Instr := .encode ⟨true, len, space⟩

/-- An operation the host presents. -/
def issue (w : Word) : HostOp := ⟨false, .word w, none⟩

/-- What a vector lists: `out`, `n_syms`, the status bits, and the state. -/
def seen : Host.Outcome State Fault Refusal → Option (List Word × Nat × BitVec 2 × Phase × Nat)
  | .next t => some (t.outputs.out, t.outputs.nSyms, t.outputs.status.bits, t.phase, t.cursor)
  | .fault _ => none
  | .refused _ => none

def refusal : Host.Outcome State Fault Refusal → Option Refusal
  | .next _ => none
  | .fault _ => none
  | .refused r => some r

def wiresOf : Host.Outcome State Fault Refusal → Option Wires
  | .next t => some t.wires
  | .fault _ => none
  | .refused _ => none

/-! ### Decoding: words written out from the tables of 30_encoding.md R82 and R88 -/

theorem test_decode_nop : decodeWord 0b00000000000000000000000000000000#32 = .ok (.nop ⟨false, 0, 0⟩) := by rfl
theorem test_decode_encode :
    decodeWord 0b00000000000110010000001100000101#32 = .ok (.encode ⟨true, 3, 25⟩) := by rfl
theorem test_decode_encode_null :
    decodeWord 0b00000000000011000000001100000001#32 = .ok (.encode ⟨false, 3, 12⟩) := by rfl
theorem test_decode_reset : decodeWord 0b00000000000000000000000000000010#32 = .ok (.reset ⟨false, 0, 0⟩) := by rfl
theorem test_decode_reserved :
    decodeWord 0b11111111111111111111111100000111#32 = .ok (.reservedCmd3 ⟨true, 255, 65535⟩) := by rfl
theorem test_decode_padding : decodeWord 0b00000000000000000000000010000001#32 = .error .nonZeroPadding := by rfl
theorem test_decode_sym0 : decodeSymbol .reference 0b00000000000100011000000000001000#32 = .ok .sym0 := by rfl
theorem test_decode_sym1 : decodeSymbol .reference 0b00000000000010011000000000010000#32 = .ok .sym1 := by rfl
theorem test_decode_symr : decodeSymbol .reference 0b00001111101000000000000000000001#32 = .ok .symr := by rfl
theorem test_decode_no_symbol : decodeSymbol .reference 0x00118009#32 = .error .notARomSymbol := by rfl
/-- V9b: the encoder gives the vector's words. -/
theorem test_encode_words : encode .reference (enc 3 25) = some 0x00190305#32 ∧
    encode .reference (.encode ⟨false, 3, 12⟩) = some 0x000C0301#32 ∧
    encode .reference (.reset ⟨false, 0, 0⟩) = some 0x00000002#32 := by decide
/-- V2 to V5: the word of a tuple and the tuple of a word. -/
theorem test_symbol_word : (⟨true, 8#15, false, 17#15⟩ : Symbol).toWord = 0x00118008#32 ∧
    Symbol.ofWord 0x00098010#32 = ⟨true, 16#15, false, 9#15⟩ := by decide

/-! ### WellFormed: an ill-formed term for each check -/

theorem test_wf_nop_len : (Instr.nop ⟨false, 256, 0⟩).wellFormed .reference = false := by decide
theorem test_wf_nop_space : (Instr.nop ⟨false, 0, 65536⟩).wellFormed .reference = false := by decide
theorem test_wf_encode_len : (enc 256 25).wellFormed .reference = false := by decide
theorem test_wf_encode_space : (enc 3 65536).wellFormed .reference = false := by decide
theorem test_wf_reset_len : (Instr.reset ⟨false, 256, 0⟩).wellFormed .reference = false := by decide
theorem test_wf_reset_space : (Instr.reset ⟨false, 0, 65536⟩).wellFormed .reference = false := by decide
theorem test_wf_reserved_len : (Instr.reservedCmd3 ⟨false, 256, 0⟩).wellFormed .reference = false := by decide
theorem test_wf_reserved_space : (Instr.reservedCmd3 ⟨false, 0, 65536⟩).wellFormed .reference = false := by decide
theorem test_wf_bitenc_len : (Instr.bitenc 256 0).wellFormed .reference = false := by decide
theorem test_wf_bitenc_space : (Instr.bitenc 3 65536).wellFormed .reference = false := by decide
theorem test_wf_rstenc_space : (Instr.rstenc 65536).wellFormed .reference = false := by decide
theorem test_wf_romread_addr : (Instr.romread 3#2).wellFormed .reference = false := by decide
theorem test_wf_largest : (enc 255 65535).wellFormed .reference = true ∧
    (Instr.romread 2#2).wellFormed .reference = true := by decide

/-! ### Configurations and the ROM -/

/-- V6. -/
def coarse : Config := { Config.reference with tickNs := 100, rst0Ns := 100 }
/-- V8. -/
def minimalPulse : Config := { Config.reference with rst1Ns := 0 }
theorem test_rom_words : Config.reference.romWords = [S0, S1, SR] := by decide
theorem test_rom_coarse : coarse.legal = true ∧
    coarse.romWords = [0x00088004#32, 0x00048008#32, 0x07D00001#32] := by decide
theorem test_rom_minimal : minimalPulse.legal = true ∧ minimalPulse.romWord .sr = 0x00000001#32 := by decide
/-- V9. -/
theorem test_illegal : ({ Config.reference with t0hNs := 40 } : Config).legal = false ∧
    ({ Config.reference with rst1Ns := 2000000 } : Config).legal = false ∧
    ({ Config.reference with t0hNs := 800 } : Config).legal = false := by decide
/-- V9c. -/
theorem test_wave : (Symbol.ofWord S0).wave = List.replicate 8 true ++ List.replicate 17 false ∧
    (Symbol.ofWord S1).wave = List.replicate 16 true ++ List.replicate 9 false ∧
    (Symbol.ofWord SR).length = 4001 := by decide

/-! ### One operation each -/

/-- V54. -/
theorem test_nop : seen (exec (.nop ⟨true, 3, 25⟩) (at_ .emitData 17 red)) = some ([], 0, 0#2, .emitData, 17) := by decide
/-- V13. -/
theorem test_encode_resumes : seen (exec (enc 3 10) (at_ .emitData 10 red)) =
    some (List.replicate 6 S1 ++ List.replicate 4 S0, 10, 0b10#2, .emitData, 20) := by decide
/-- V14. -/
theorem test_encode_falls_through : seen (exec (enc 3 10) (at_ .emitData 20 red)) =
    some (List.replicate 4 S0 ++ [SR], 5, 0b01#2, .emitData, 0) := by decide
/-- V52, V53. -/
theorem test_reset : seen (exec (.reset ⟨false, 0, 0⟩)
    { at_ .emitReset 24 red with cfg := { Config.reference with bitencOk := false } }) =
    some ([], 0, 0#2, .emitData, 0) := by decide
theorem test_reserved : refusal (exec (.reservedCmd3 ⟨true, 3, 25⟩) (at_ .emitData 0 red)) =
    some .reservedCommand := by decide
/-- V21, which is R138. -/
theorem test_bitenc_inside_byte : seen (exec (.bitenc 3 4) (at_ .emitData 6 mixed)) =
    some ([S1, S0, S1, S0], 4, 0#2, .emitData, 10) := by decide
/-- V22: exactly the bits owed is `consumed`, not `exhausted`. -/
theorem test_bitenc_exact : (wiresOf (exec (.bitenc 3 8) (at_ .emitData 16 mixed))).map
    (fun w => (w.consumed, w.bitExhausted)) = some (true, false) := by decide
/-- V41. -/
theorem test_rstenc : seen (exec (.rstenc 1) (at_ .emitReset 24 red)) =
    some ([SR], 1, 0#2, .emitReset, 24) := by decide
/-- V40. -/
theorem test_rstenc_full : (wiresOf (exec (.rstenc 0) (at_ .emitReset 24 red))).map
    (fun w => (w.done, w.rstExhausted)) = some (false, true) := by decide
/-- V9a. -/
theorem test_romread : (wiresOf (exec (.romread 1#2) State.reset)).map (·.romData) = some 0x00098010#32 := by decide
theorem test_romread_reserved : refusal (exec (.romread 3#2) State.reset) = some .reservedRomAddress := by decide
theorem test_sym0 : seen (exec .sym0 State.reset) = some ([0x00118008#32], 1, 0#2, .emitData, 0) := by decide
theorem test_sym1 : seen (exec .sym1 State.reset) = some ([0x00098010#32], 1, 0#2, .emitData, 0) := by decide
theorem test_symr : seen (exec .symr State.reset) = some ([0x0FA00001#32], 1, 0#2, .emitData, 0) := by decide

/-! ### The step -/

/-- V55: the command presented with `hw_reset` is not executed. -/
theorem test_hw_reset : seen (step { at_ .emitReset 24 red with pending := [⟨true, .word 0x00190305#32, none⟩] }) =
    some ([], 0, 0#2, .emitData, 0) := by decide
/-- V11 through the step, with the buffer sampled in it: `0x00190305`. -/
theorem test_step_red : seen (step { State.reset with pending := [⟨false, .word 0x00190305#32, some red⟩] }) =
    some (List.replicate 8 S0 ++ (List.replicate 8 S1 ++ (List.replicate 8 S0 ++ [SR])), 25, 0b01#2, .emitData, 0) := by
  decide
/-- V61: the length was shrunk below the cursor. -/
theorem test_step_shrunk : seen (step { at_ .emitData 20 red with
    pending := [⟨false, .ports 1#2 ⟨true, 2, 10⟩, some [0xAA#8, 0xAA#8]⟩] }) =
    some ([SR], 1, 0b01#2, .emitData, 0) := by decide
theorem test_with_fetch_word : seen (step ((at_ .emitData 12 mixed).withFetchWord 32 0x00000002)) =
    some ([], 0, 0#2, .emitData, 0) := by decide

/-! ### Witnesses of the statements' hypotheses -/

/-- The hypotheses met by the statements that ask only for a legal configuration. -/
theorem witness_legal : State.reset.cfg.legal = true ∧ Config.reference.legal = true ∧
    Config.reference.lenW = 8 ∧ Config.reference.spaceW = 16 := by decide

theorem witness_ResetStateIsIdle : ∃ t, exec (.reset ⟨true, 3, 25⟩) (at_ .emitReset 24 red) = .next t := ⟨_, rfl⟩

theorem witness_HwResetOverridesCommand : ∃ (s : State) (op : HostOp) (rest : List HostOp),
    s.cfg.legal = true ∧ s.pending = op :: rest ∧ op.hwReset = true ∧ s.idle = false :=
  ⟨{ at_ .emitReset 24 red with pending := [⟨true, .word 0x00190305#32, none⟩] }, _, _, by decide, rfl, rfl, by decide⟩

/-- The three causes of R201, each alone, and a state in which none holds. -/
def noBitenc : State := { at_ .emitData 0 red with cfg := { Config.reference with bitencOk := false } }
def noRstenc : State := { at_ .emitReset 24 red with cfg := { Config.reference with rstencOk := false } }
theorem witness_EncodeFailureIsSilentNoop :
    (noBitenc.cfg.legal = true ∧ noBitenc.cfg.bitencOk = false ∧ noBitenc.cfg.rstencOk = true) ∧
    (noRstenc.cfg.legal = true ∧ noRstenc.cfg.rstencOk = false ∧ noRstenc.cfg.bitencOk = true) ∧
    (at_ .emitData 0 red).ready = true := by decide

/-- One state and operands for each row of R182: 25 bits and slots about the boundary, then the reset phase. -/
theorem witness_EncodeTransitionTable :
    ((at_ .emitData 10 red).ready = true ∧ (at_ .emitData 10 red).phase = .emitData ∧
      (at_ .emitData 10 red).cursor ≤ 8 * 3 ∧ 13 < 8 * 3 - 10 ∧ 14 = 8 * 3 - 10 ∧ 8 * 3 - 10 < 15) ∧
    ((at_ .emitReset 24 red).ready = true ∧ (at_ .emitReset 24 red).phase = .emitReset) ∧
    (noBitenc.cfg.legal = true ∧ noBitenc.ready = false) := by decide
/-- V12, V17, V18, V16, V31: the rows' outcomes at such boundaries, as the vectors give them. -/
theorem witness_EncodeTransitionTable_outcomes :
    (seen (exec (enc 3 13) (at_ .emitData 10 red))).map (·.2) = some (13, 0b10#2, .emitData, 23) ∧
    (seen (exec (enc 3 24) (at_ .emitData 0 red))).map (·.2) = some (24, 0b10#2, .emitReset, 24) ∧
    (seen (exec (enc 3 1) (at_ .emitReset 24 red))).map (·.2) = some (1, 0b01#2, .emitData, 0) ∧
    (seen (exec (enc 3 0) (at_ .emitReset 24 red))).map (·.2) = some (0, 0b10#2, .emitReset, 24) ∧
    (seen (exec (.encode ⟨false, 3, 25⟩) (at_ .emitData 12 red))).map (·.2) = some (0, 0b01#2, .emitData, 12) :=
  ⟨by decide, by decide, by decide, by decide, by decide⟩

/-- `SPACE = 0` in each of the three positions (V16, V19d, V19c), and an `ENCODE` that reports `MEM_FULL` (V12). -/
theorem witness_EncodeStaysWithinSpace :
    (at_ .emitReset 24 red).ready = true ∧
    ((at_ .emitData 0 mixed).ready = true ∧ (at_ .emitData 0 mixed).cursor < 8 * 3) ∧
    ((at_ .emitData 0 []).ready = true ∧ (at_ .emitData 0 []).cursor = 8 * 0) ∧
    (seen (exec (enc 3 10) (at_ .emitData 0 red))).map (·.2.2.1) = some 0b10#2 := by decide

theorem witness_EncodeReportsExactlyOneFlag : (at_ .emitData 0 red).ready = true ∧
    (seen (exec (enc 3 25) (at_ .emitData 0 red))).map (·.2.2.1) = some 0b01#2 := by decide

theorem witness_EncodeMakesProgress : (at_ .emitData 0 red).ready = true ∧ (at_ .emitData 0 red).idle = true ∧
    (∀ n ∈ List.replicate 25 1, 1 ≤ n) ∧ 8 * 3 + 1 ≤ (List.replicate 25 1).length := by decide

/-- Capacities of exactly the frame, one less, and less than the data. -/
theorem witness_TransmissionStreamLaw : (at_ .emitData 0 red).ready = true ∧ (at_ .emitData 0 red).idle = true ∧
    (at_ .emitData 0 red).inMem = Memory.ofBytes red ∧ 8 * red.length + 1 ≤ capacity [some 10, none, some 10, some 5] ∧
    capacity [some 10, some 14] = 8 * red.length ∧ capacity [some 10, none, some 13] < 8 * red.length := by decide

/-- P3: four operations of capacity 8, and three are too few. -/
theorem witness_TransmissionOperationCount : (at_ .emitData 0 mixed).ready = true ∧
    (at_ .emitData 0 mixed).idle = true ∧ (at_ .emitData 0 mixed).inMem = Memory.ofBytes mixed ∧
    (8 * mixed.length + 1 + (8 - 1)) / 8 ≤ 4 ∧ 3 < (8 * mixed.length + 1 + (8 - 1)) / 8 := by decide

theorem witness_SuspendedEncodeResumesExactly : (at_ .emitData 6 mixed).ready = true ∧
    (∀ k, k < 3 → ((at_ .emitData 6 mixed).inMem.read k).isSome = true) ∧
    (seen (exec (enc 3 4) (at_ .emitData 6 mixed))).map (·.2.2.1) = some 0b10#2 := by decide

/-- V20 and V23 leave `BITENC` exhausted and consumed; the latter with and without a slot for `SR`. -/
theorem witness_EncodeIsBitencThenRstenc : (at_ .emitData 0 mixed).ready = true ∧
    (wiresOf (exec (.bitenc 3 8) (at_ .emitData 0 mixed))).map (·.bitExhausted) = some true ∧
    (wiresOf (exec (.bitenc 3 24) (at_ .emitData 0 mixed))).map (·.bitExhausted) = some false ∧
    (wiresOf (exec (.rstenc 0) (at_ .emitReset 24 mixed))).map (·.done) = some false ∧
    (wiresOf (exec (.rstenc 1) (at_ .emitReset 24 mixed))).map (·.done) = some true := by decide

theorem witness_ResetPhaseIgnoresDataAndLength : (at_ .emitReset 24 red).ready = true ∧
    (at_ .emitReset 24 red).phase = .emitReset := by decide

/-- With and without a slot (V41, V40). -/
theorem witness_ResetPhaseIsRstenc : (at_ .emitReset 24 red).ready = true ∧
    (at_ .emitReset 24 red).phase = .emitReset ∧
    (wiresOf (exec (.rstenc 1) (at_ .emitReset 24 red))).map (·.done) = some true ∧
    (wiresOf (exec (.rstenc 0) (at_ .emitReset 24 red))).map (·.done) = some false := by decide

/-- Two buffers that differ only in bits before the cursor. -/
theorem witness_EncodeReadsOnlyOwedBits : (at_ .emitData 12 red).cfg.legal = true ∧
    ∀ c, 12 ≤ c → c < 24 →
      ({ at_ .emitData 12 red with inMem := Memory.ofBytes [0xAA#8, 0x0F#8, 0x00#8], freeTick := 7 } : State).inBit c =
        (at_ .emitData 12 red).inBit c := by
  refine ⟨by decide, fun c h1 h2 => ?_⟩
  interval_cases c <;> decide

theorem witness_CommandsNeverReadOutputsOrWires : State.reset.cfg.legal = true ∧ (enc 3 10).isCommand = true ∧
    ∀ p, enc 3 10 ≠ .reservedCmd3 p := ⟨by decide, rfl, fun _ h => nomatch h⟩

theorem witness_FailingEncodeLeavesNoTrace : (at_ .emitData 12 red).cfg.legal = true ∧
    (⟨false, 3, 12⟩ : Operands).dataValid = false := by decide

/-- V61, with and without a slot. -/
theorem witness_ShrunkLengthEndsDataPhase : (at_ .emitData 20 [0xAA#8, 0xAA#8]).ready = true ∧
    (at_ .emitData 20 [0xAA#8, 0xAA#8]).phase = .emitData ∧ 8 * 2 < (at_ .emitData 20 [0xAA#8, 0xAA#8]).cursor := by
  decide

/-- V24: `exhausted`, and V26: not. -/
theorem witness_BitencEmitsOwedBits : (at_ .emitData 5 mixed).cfg.legal = true ∧
    (wiresOf (exec (.bitenc 3 0) (at_ .emitData 5 mixed))).map (·.bitExhausted) = some true ∧
    (wiresOf (exec (.bitenc 0 0) (at_ .emitData 0 []))).map (·.consumed) = some true := by decide

theorem witness_BitencLeavesTheRest : ∃ t, exec (.bitenc 3 4) (at_ .emitData 6 mixed) = .next t := ⟨_, rfl⟩

/-- Wires as a sub-encoder of another make might leave them: both flags, and neither. -/
theorem witness_SubEncodersReportExactlyOneFlag :
    ({ State.reset with wires := ⟨true, true, false, false, 0#32⟩ } : State).phase = .emitData ∧
    ({ State.reset with wires := ⟨true, true, false, false, 0#32⟩ } : State).wires.bitExhausted = true ∧
    State.reset.wires.bitExhausted = false ∧ State.reset.wires.consumed = false := by decide

/-- The first bit of the first byte and the last bit of the last. -/
theorem witness_InputBitsMsbFirst : (at_ .emitData 0 mixed).inMem = Memory.ofBytes mixed ∧
    mixed[0]? = some 0x12#8 ∧ (0 : Nat) < 8 ∧ mixed[2]? = some 0xFF#8 ∧ (7 : Nat) < 8 := by decide

theorem witness_DarkFrameIsTwentyFourZeros : (at_ .emitData 0 darkBytes).ready = true ∧
    (at_ .emitData 0 darkBytes).idle = true ∧ (at_ .emitData 0 darkBytes).inMem = Memory.ofBytes darkBytes := by decide

/-- V7, and the longest duration a field holds. -/
theorem witness_DurationsTruncate : ({ Config.reference with tickNs := 12 } : Config).ticks 400 ≤ 32767 ∧
    Config.reference.ticks (32767 * 50) = 32767 ∧ 1 ≤ Config.reference.tickNs := by decide

theorem witness_TransmissionWaveform : (at_ .emitData 0 red).ready = true ∧ (at_ .emitData 0 red).idle = true ∧
    (at_ .emitData 0 red).inMem = Memory.ofBytes red ∧ 8 * red.length + 1 ≤ capacity [some 24, none, some 1] := by decide

/-- One byte whose last bit is 1, on a tick of 400 ns: 8 bits of three ticks and one tick of reset pulse. -/
def slow : Config := { Config.reference with tickNs := 400, rst0Ns := 400, rst1Ns := 0 }
/-- The frame 5 ticks after an earlier stretch of one symbol: its last high half ends 31 ticks from the start, and a
low half and the reset pulse of one tick each follow. -/
def earlier : List Stretch := [⟨0, [slow.romWord .s0]⟩]
theorem witness_LineIsLowAfterTheLastBit : slow.legal = true ∧ 1 ≤ [0x01#8].length ∧
    true = bufferBit [0x01#8] (8 * [0x01#8].length - 1) ∧
    2 = slow.ticks slow.t1lNs + slow.ticks slow.rst0Ns + slow.ticks slow.rst1Ns ∧
    31 + 2 = (line earlier).length + 5 + (wave (slow.frame [0x01#8])).length := by decide
/-- R119 and R117 on that line: low before the stretches, in the idle time, high at the first bit's first tick, high
just before tick 31 and low from there to the next transmission and after the last one. -/
theorem test_line_level : ([-1, 3, 7, 8, 30, 31, 32, 35, 36, 40].map
    (lineLevel (earlier ++ [⟨5, slow.frame [0x01#8]⟩, ⟨3, [slow.romWord .s0]⟩]))) =
    [false, false, false, true, true, false, false, false, true, false] := by decide

theorem witness_LineIsLowAroundATransmission : (at_ .emitData 0 red).ready = true ∧
    (at_ .emitData 0 red).idle = true ∧ (at_ .emitData 0 red).inMem = Memory.ofBytes red ∧
    8 * red.length + 1 ≤ capacity [some 24, none, some 1] ∧ (at_ .emitData 0 red).playedAs [] ∧
    ({ at_ .emitData 0 red with outMem := [slow.romWord .s0] } : State).playedAs earlier :=
  ⟨by decide, by decide, by decide, by decide, rfl, rfl⟩

/-- The three rows of R111's table. -/
theorem witness_RomHoldsConfiguredSymbols : Config.reference.legal = true ∧
    RomIndex.ofAddr 0#2 = some .s0 ∧ RomIndex.ofAddr 1#2 = some .s1 ∧ RomIndex.ofAddr 2#2 = some .sr := by decide

theorem witness_SymbolWordsAreEmittedWhole : Instr.sym0 = .sym0 ∧ Instr.sym1 = .sym1 ∧ Instr.symr = .symr ∧
    State.reset.cfg.legal = true := by decide

theorem witness_CommandWordRoundTrip : (enc 255 65535).isCommand = true ∧
    (enc 255 65535).wellFormed .reference = true ∧
    ∃ i, decodeWord 0xFFFFFF07#32 = .ok i := ⟨rfl, by decide, _, rfl⟩

theorem witness_SymbolWordRoundTrip : Config.reference.legal = true ∧ Instr.symr.isCommand = false ∧
    encode .reference .symr = some SR ∧ decodeSymbol .reference SR = .ok .symr ∧
    (0x00118009#32) ∉ Config.reference.romWords := ⟨by decide, rfl, by decide, rfl, by decide⟩

theorem witness_StepRunsDecodedInstruction : ∃ (s : State) (op : HostOp) (rest : List HostOp) (i : Instr),
    s.pending = op :: rest ∧ op.hwReset = false ∧ op.command.decode = .ok i ∧ i.wellFormed s.cfg = true :=
  ⟨{ at_ .emitData 0 red with pending := [issue 0x00190305#32] }, _, _, _, rfl, rfl, rfl, by decide⟩

theorem witness_StepWithoutCommandIsNop : State.reset.cfg.legal = true ∧ State.reset.pending = [] := by decide

/-- The lowest and the highest bit of the padding field, and a word without padding. -/
theorem witness_NonZeroPaddingIsRefused :
    refusal (step { State.reset with pending := [issue 0x00000008#32] }) = some .nonZeroPadding ∧
    refusal (step { State.reset with pending := [issue 0x00000080#32] }) = some .nonZeroPadding ∧
    refusal (step { State.reset with pending := [issue 0x00000104#32] }) = none := by decide

theorem witness_OperandTooWideIsRefused : 2 ^ State.reset.cfg.lenW ≤ 256 ∧ 2 ^ State.reset.cfg.spaceW ≤ 65536 ∧
    refusal (step { State.reset with pending := [⟨false, .ports 1#2 ⟨true, 256, 0⟩, none⟩] }) = some .operandTooWide ∧
    refusal (step { State.reset with pending := [⟨false, .ports 1#2 ⟨true, 255, 2⟩, none⟩] }) = none := by decide
/-- Packed words in a configuration with ports of 2 bits: `len` 4 and `space` 4 do not fit, 3 and 3 do. -/
def narrow : Config := { Config.reference with lenW := 2, spaceW := 2 }
theorem witness_OperandTooWideIsRefused_word : narrow.legal = true ∧
    refusal (step { State.reset with cfg := narrow, pending := [issue 0x00030405#32] }) = some .operandTooWide ∧
    refusal (step { State.reset with cfg := narrow, pending := [issue 0x00040305#32] }) = some .operandTooWide ∧
    refusal (step { State.reset with cfg := narrow, pending := [issue 0x00030305#32] }) = none := by decide

/-- One configuration outside each bound of R8 (V9 and its neighbours). -/
theorem witness_IllegalConfigurationIsRefused :
    ({ Config.reference with tickNs := 0 } : Config).legal = false ∧
    ({ Config.reference with lenW := 1 } : Config).legal = false ∧
    ({ Config.reference with spaceW := 0 } : Config).legal = false ∧
    ({ Config.reference with t0lNs := 49 } : Config).legal = false ∧
    ({ Config.reference with t1lNs := 32768 * 50 } : Config).legal = false ∧
    ({ Config.reference with t1hNs := 400 } : Config).legal = false ∧
    ({ Config.reference with rst0Ns := 49, rst1Ns := 49 } : Config).legal = false := by decide

theorem witness_CommandsAlwaysComplete : State.reset.cfg.legal = true ∧
    refusal (step { State.reset with pending := [issue 0x00000003#32] }) = some .reservedCommand ∧
    refusal (step { State.reset with pending := [issue 0x00000009#32] }) = some .nonZeroPadding := by decide

/-- One run for the statements about every operation and every step that answers a next state. -/
theorem witness_exec_next : ∃ t, exec (enc 3 10) (at_ .emitData 10 red) = .next t := ⟨_, rfl⟩
theorem witness_step_next : ∃ t, step { at_ .emitData 10 red with pending := [issue 0x000A0305#32] } = .next t :=
  ⟨_, rfl⟩

/-- Each of the three events from a state that is not `IDLE`. -/
theorem witness_IdleReachedByThreeEvents :
    (at_ .emitData 20 red).idle = false ∧
    seen (step { at_ .emitData 20 red with pending := [⟨true, .word 0#32, none⟩] }) =
      some ([], 0, 0#2, .emitData, 0) ∧
    seen (step { at_ .emitData 20 red with pending := [issue 0x00000002#32] }) = some ([], 0, 0#2, .emitData, 0) ∧
    seen (step { at_ .emitData 20 red with pending := [issue 0x000A0305#32] }) =
      some ([S0, S0, S0, S0, SR], 5, 0b01#2, .emitData, 0) :=
  ⟨by decide, by decide, by decide, by decide⟩

/-- Both phases at the edges of R32, and `LEN = 0`. -/
theorem witness_PositionInvariantIsKept : PositionInv 3 (at_ .emitData 23 red) ∧ PositionInv 3 (at_ .emitReset 24 red) ∧
    PositionInv 0 (at_ .emitReset 0 []) := by
  refine ⟨⟨fun _ => Or.inl (by decide), fun h => nomatch h⟩, ⟨fun h => (nomatch h), fun _ => rfl⟩,
    ⟨fun h => (nomatch h), fun _ => rfl⟩⟩

/-- A state in mid-transmission, one word emitted, the next `ENCODE` at hand. -/
def midway : State :=
  { at_ .emitData 1 red with
    outMem := [S0]
    outputs := ⟨[S0], 1, ⟨false, true⟩⟩
    pending := [issue 0x000A0305#32] }
theorem witness_StepKeepsInvariant : Inv midway ∧ ∃ t, step midway = .next t := by
  refine ⟨⟨by decide, by decide, by decide, by decide, ?_, ⟨[], rfl⟩, ?_, by decide⟩, _, rfl⟩
  · show 1 < 65536
    omega
  · intro w h
    rw [show w = Config.reference.romWord .s0 from List.mem_singleton.mp h]
    exact List.mem_cons_self

end Sys2Proof.Tests
end

section
/-! PROOFS of the family 00_scope.md: the invariant every step keeps, and what an illegal configuration refuses. -/

namespace Sys2Proof.Machine

/-! ### What a non-failing `ENCODE` answers stays within its operands -/

/-- 43_transmission_state_machine.md R182: an `ENCODE` never emits more words than there are slots, because the reset
symbol follows the data only where they left a slot. -/
theorem length_encodeWords_le (p : Operands) (s : State) : (encodeWords p s).length ≤ p.space := by
  unfold encodeWords encodeDone
  cases s.phase with
  | emitData =>
    by_cases hd : 8 * p.len - s.cursor < p.space
    · simp [hd]
    · simp [hd]
  | emitReset =>
    by_cases hd : 1 ≤ p.space
    · simp [hd]
    · simp [hd]

/-- 41_bit_encoder.md R133: an `ENCODE` moves the cursor at most to the end of its input. -/
theorem encodeCursor_le (p : Operands) (s : State) : encodeCursor p s ≤ max s.cursor (8 * p.len) := by
  unfold encodeCursor
  split
  · exact Nat.zero_le _
  · cases s.phase with
    | emitData => dsimp only; omega
    | emitReset => exact le_max_left _ _

/-- 30_encoding.md R81: an `ENCODE` emits words of the ROM only. -/
theorem encodeWords_alphabet (p : Operands) (s : State) : ∀ w ∈ encodeWords p s, w ∈ s.cfg.romWords := by
  intro w hw
  rcases List.mem_append.mp hw with hw | hw
  · cases hp : s.phase with
    | emitData => exact s.nextWords_alphabet _ w (by simpa [hp] using hw)
    | emitReset => simp [hp] at hw
  · split at hw
    · exact List.mem_singleton.mp hw ▸ s.cfg.romWord_mem .sr
    · exact absurd hw List.not_mem_nil

/-! ### Each part of a step keeps the invariant -/

/-- An operation that appends ROM words to `OUT` and answers with exactly those keeps the invariant. -/
theorem Inv.of_response {s t : State} (h : Inv s) {ws : List Word} {f : Status} (hcfg : t.cfg = s.cfg)
    (hin : t.inMem = s.inMem) (hcur : t.cursor ≤ 8 * (2 ^ s.cfg.lenW - 1)) (hmem : t.outMem = s.outMem ++ ws)
    (hout : t.outputs = ⟨ws, ws.length, f⟩) (hlen : ws.length < 2 ^ s.cfg.spaceW)
    (hrom : ∀ w ∈ ws, w ∈ s.cfg.romWords) (hf : ¬ (f.complete = true ∧ f.memFull = true)) : Inv t where
  legal := hcfg ▸ h.legal
  inMem_wf := hin ▸ h.inMem_wf
  cursor_le := hcfg ▸ hcur
  nSyms_eq := by rw [hout]
  nSyms_lt := by rw [hout, hcfg]; exact hlen
  out_suffix := by rw [hout, hmem]; exact List.suffix_append _ _
  alphabet := by
    rw [hmem, hcfg]
    exact fun w hw => (List.mem_append.mp hw).elim (h.alphabet w) (hrom w)
  status_ne := by rw [hout]; exact hf

/-- Answering with no word and at most one flag keeps the invariant. -/
theorem Inv.returnNothing {s : State} (h : Inv s) {f : Status}
    (hf : ¬ (f.complete = true ∧ f.memFull = true)) : Inv (s.returnNothing f) :=
  h.of_response (ws := []) rfl rfl h.cursor_le (List.append_nil _).symm rfl (Nat.two_pow_pos _)
    (fun _ hw => absurd hw List.not_mem_nil) hf

/-- The return to `IDLE` keeps the invariant. -/
theorem Inv.toIdle {s : State} (h : Inv s) : Inv s.toIdle := { h with cursor_le := Nat.zero_le _ }

/-- Sampling the host's inputs keeps the invariant. -/
theorem Inv.sample {s : State} (h : Inv s) (op : HostOp) (rest : List HostOp) : Inv (s.sample op rest) where
  legal := by simpa using h.legal
  inMem_wf := State.sample_wf h.inMem_wf op rest
  cursor_le := by simpa using h.cursor_le
  nSyms_eq := by simpa using h.nSyms_eq
  nSyms_lt := by simpa using h.nSyms_lt
  out_suffix := by simpa using h.out_suffix
  alphabet := by simpa using h.alphabet
  status_ne := by simpa using h.status_ne

/-- Hardware reset keeps the invariant. -/
theorem Inv.hwReset {s : State} (h : Inv s) : Inv s.hwReset :=
  h.toIdle.returnNothing (by simp)

/-- An `ENCODE` whose operands fit their ports keeps the invariant: it emits at most `SPACE < 2^SPACE_W` words and
leaves the cursor at most at `8*LEN`, with `LEN < 2^LEN_W`. -/
theorem Inv.encode {s t : State} (h : Inv s) {p : Operands} (hlen : p.len < 2 ^ s.cfg.lenW)
    (hspace : p.space < 2 ^ s.cfg.spaceW) (ht : execEncode p s = .next t) : Inv t := by
  rcases encodeFails_or_ready p h.legal with hf | ⟨hr, hv⟩
  · cases (execEncode_of_encodeFails h.legal hf).symm.trans ht
    exact h.returnNothing (by simp)
  · obtain ⟨t', ht', -, hcur, hmem, hout, hcfg, hin, -, -⟩ := execEncode_summary p hr hv
    cases ht'.symm.trans ht
    have hbound : t.cursor ≤ 8 * (2 ^ s.cfg.lenW - 1) := by
      have hmax := encodeCursor_le p s
      have hold := h.cursor_le
      omega
    refine h.of_response hcfg hin hbound hmem hout ((length_encodeWords_le p s).trans_lt hspace)
      (encodeWords_alphabet p s) ?_
    cases encodeDone p s <;> simp

/-- A command whose operands fit their ports keeps the invariant. -/
theorem Inv.command {s t : State} (h : Inv s) {i : Instr} (hc : i.isCommand = true)
    (hw : i.wellFormed s.cfg = true) (ht : exec i s = .next t) : Inv t := by
  obtain ⟨-, ⟨p, rfl, rfl⟩ | ⟨p, rfl, rfl⟩ | ⟨p, rfl, ht⟩⟩ := exec_command_next hc ht
  · exact h.returnNothing (by simp)
  · exact h.toIdle.returnNothing (by simp)
  · have hfits : p.len < 2 ^ s.cfg.lenW ∧ p.space < 2 ^ s.cfg.spaceW := by
      simpa [Instr.wellFormed, Config.fitsLen, Config.fitsSpace] using hw
    exact h.encode hfits.1 hfits.2 ht

/-- Settles O52: each way a step answers is a composition of parts that keep the invariant. -/
theorem stepKeepsInvariant : Obligations.StepKeepsInvariant := by
  intro s t h ht
  rcases step_next_cases ht with ⟨-, ht⟩ | ⟨op, rest, -, -, -, rfl⟩ | ⟨op, rest, i, -, -, -, hc, hw, ht⟩
  · exact h.command rfl (by simp [noCommand, Instr.wellFormed, Config.fitsLen, Config.fitsSpace]) ht
  · exact (h.sample op rest).hwReset
  · exact (h.sample op rest).command hc (by rwa [State.sample_cfg]) ht

/-! ### Nothing runs in an illegal configuration -/

/-- In an illegal configuration the guard refuses. -/
theorem requireLegal_of_illegal {s : State} (h : s.cfg.legal = false) (k : Host.Outcome State Fault Refusal) :
    requireLegal s k = .refused .illegalConfiguration := by
  simp [requireLegal, h]

/-- Every operation but the reserved command is guarded, so an illegal configuration refuses it. -/
theorem exec_of_illegal {i : Instr} {s : State} (h : s.cfg.legal = false) (hi : ∀ p, i ≠ .reservedCmd3 p) :
    exec i s = .refused .illegalConfiguration := by
  cases i with
  | reservedCmd3 p => exact absurd rfl (hi p)
  | nop | encode | reset | bitenc | rstenc | romread | sym0 | sym1 | symr => exact requireLegal_of_illegal h _

/-- In an illegal configuration every operation is refused, the reserved command as it always is. -/
theorem exec_refused_of_illegal (i : Instr) {s : State} (h : s.cfg.legal = false) :
    ∃ r, exec i s = .refused r := by
  by_cases hi : ∃ p, i = .reservedCmd3 p
  · obtain ⟨p, rfl⟩ := hi
    exact ⟨_, rfl⟩
  · exact ⟨_, exec_of_illegal h fun p hp => hi ⟨p, hp⟩⟩

/-- In an illegal configuration every presented command is refused. -/
theorem runCommand_refused_of_illegal (c : Command) {s : State} (h : s.cfg.legal = false) :
    ∃ r, runCommand c s = .refused r := by
  unfold runCommand
  cases c.decode with
  | error e => exact ⟨_, rfl⟩
  | ok i =>
    dsimp only
    split
    · exact exec_refused_of_illegal i h
    · exact ⟨_, rfl⟩

/-- In an illegal configuration every step is refused, hardware reset included. -/
theorem step_refused_of_illegal {s : State} (h : s.cfg.legal = false) : ∃ r, step s = .refused r := by
  unfold step
  cases s.pending with
  | nil => exact exec_refused_of_illegal _ h
  | cons op rest =>
    have hs : (s.sample op rest).cfg.legal = false := by rwa [State.sample_cfg]
    dsimp only [runOp]
    split
    · exact ⟨_, requireLegal_of_illegal hs _⟩
    · exact runCommand_refused_of_illegal _ hs

/-- Settles O44: legality is the list of bounds, every operation starts with the guard, and a step runs one. -/
theorem illegalConfigurationIsRefused : Obligations.IllegalConfigurationIsRefused := by
  refine ⟨fun cfg => ?_, fun _ _ h hi => exec_of_illegal h hi, fun _ h => step_refused_of_illegal h⟩
  simp only [Config.legal_iff, Config.ticks, List.forall_mem_cons, List.not_mem_nil, false_imp_iff, implies_true,
    and_true, and_assoc]

end Sys2Proof.Machine
end

section
/-! PROOFS of the family 10_state.md: who reads and who writes the registers, the ports and the wires, the position of a
transmission, the widths of the operand ports, and the state after reset. -/

namespace Sys2Proof.Machine

/-! ### What one instruction answers -/

/-- A guarded operation that always answers the same state answers that one. -/
theorem eq_of_requireLegal_next {s t u : State} (h : requireLegal s (.next u) = .next t) :
    s.cfg.legal = true ∧ t = u := by
  obtain ⟨hl, h⟩ := requireLegal_next.mp h
  injection h with h
  exact ⟨hl, h.symm⟩

/-- Everything a row that is not a command can answer: the micro-operations, the ROM lookup and the symbol words. -/
theorem exec_nonCommand_next {i : Instr} (hc : i.isCommand = false) {s t : State} (h : exec i s = .next t) :
    s.cfg.legal = true ∧
    ((∃ len space, i = .bitenc len space ∧ t = bitenc len space s) ∨
     (∃ space, i = .rstenc space ∧ t = rstenc space s) ∨
     (∃ a e, i = .romread a ∧ RomIndex.ofAddr a = some e ∧ t = s.readRom e) ∨
     (∃ e, (i = .sym0 ∧ e = .s0 ∨ i = .sym1 ∧ e = .s1 ∨ i = .symr ∧ e = .sr) ∧ t = s.emit (s.cfg.romWord e))) := by
  cases i with
  | nop _ => cases hc
  | encode _ => cases hc
  | reset _ => cases hc
  | reservedCmd3 _ => cases hc
  | bitenc len space =>
    obtain ⟨hl, rfl⟩ := eq_of_requireLegal_next h
    exact ⟨hl, .inl ⟨len, space, rfl, rfl⟩⟩
  | rstenc space =>
    obtain ⟨hl, rfl⟩ := eq_of_requireLegal_next h
    exact ⟨hl, .inr (.inl ⟨space, rfl, rfl⟩)⟩
  | romread a =>
    obtain ⟨hl, h⟩ := requireLegal_next.mp h
    cases he : RomIndex.ofAddr a with
    | none => rw [he] at h; cases h
    | some e =>
      rw [he] at h
      injection h with h
      exact ⟨hl, .inr (.inr (.inl ⟨a, e, rfl, he, h.symm⟩))⟩
  | sym0 =>
    obtain ⟨hl, rfl⟩ := eq_of_requireLegal_next h
    exact ⟨hl, .inr (.inr (.inr ⟨.s0, .inl ⟨rfl, rfl⟩, rfl⟩))⟩
  | sym1 =>
    obtain ⟨hl, rfl⟩ := eq_of_requireLegal_next h
    exact ⟨hl, .inr (.inr (.inr ⟨.s1, .inr (.inl ⟨rfl, rfl⟩), rfl⟩))⟩
  | symr =>
    obtain ⟨hl, rfl⟩ := eq_of_requireLegal_next h
    exact ⟨hl, .inr (.inr (.inr ⟨.sr, .inr (.inr ⟨rfl, rfl⟩), rfl⟩))⟩

/-- `NOP` as an equation (43_transmission_state_machine.md R166). -/
theorem exec_nop (p : Operands) {s : State} (hl : s.cfg.legal = true) :
    exec (.nop p) s = .next (s.returnNothing Status.none) :=
  requireLegal_of_legal hl _

/-- `RESET` does to the block exactly what hardware reset does (R176, 70_reset_and_hazards.md R230). -/
theorem exec_reset (p : Operands) {s : State} (hl : s.cfg.legal = true) : exec (.reset p) s = .next s.hwReset :=
  requireLegal_of_legal hl _

/-- `RESET` answers nothing but the state after hardware reset. -/
theorem eq_hwReset_of_exec_reset {p : Operands} {s t : State} (h : exec (.reset p) s = .next t) : t = s.hwReset :=
  (eq_of_requireLegal_next h).2

/-! ### Nothing but the registers persists -/

/-- Two answers agree in the ports, the stream, both registers and the sampling counter; their wires may differ. -/
def SameAnswer (t t' : State) : Prop :=
  t'.outputs = t.outputs ∧ t'.outMem = t.outMem ∧ t'.phase = t.phase ∧ t'.cursor = t.cursor ∧ t'.freeTick = t.freeTick

/-- An `ENCODE` starts with `out` empty and drives every wire before it reads it, so what an earlier operation left on
ports and wires does not show in its answer (10_state.md R25, R26). -/
theorem execEncode_sameAnswer (p : Operands) {s : State} (o : Outputs) (w : Wires) (hl : s.cfg.legal = true) :
    ∃ t t', execEncode p s = .next t ∧ execEncode p { s with outputs := o, wires := w } = .next t' ∧
      SameAnswer t t' := by
  rcases encodeFails_or_ready p hl with hf | ⟨hr, hv⟩
  · exact ⟨_, _, execEncode_of_encodeFails hl hf,
      execEncode_of_encodeFails (s := { s with outputs := o, wires := w }) hl hf, rfl, rfl, rfl, rfl, rfl⟩
  · obtain ⟨t, ht, hph, hcur, hmem, hout, -, -, -, htick⟩ := execEncode_summary p hr hv
    obtain ⟨t', ht', hph', hcur', hmem', hout', -, -, -, htick'⟩ :=
      execEncode_summary (s := { s with outputs := o, wires := w }) p hr hv
    exact ⟨t, t', ht, ht', hout'.trans hout.symm, hmem'.trans hmem.symm, hph'.trans hph.symm, hcur'.trans hcur.symm,
      htick'.trans htick.symm⟩

/-- Settles O17: `NOP` and `RESET` overwrite the ports and read no wire, and `ENCODE` answers alike. -/
theorem commandsNeverReadOutputsOrWires : Obligations.CommandsNeverReadOutputsOrWires := by
  intro i s o w hl hc hi
  cases i with
  | nop p =>
    exact ⟨_, _, exec_nop p hl, exec_nop (s := { s with outputs := o, wires := w }) p hl, rfl, rfl, rfl, rfl, rfl⟩
  | reset p =>
    exact ⟨_, _, exec_reset p hl, exec_reset (s := { s with outputs := o, wires := w }) p hl, rfl, rfl, rfl, rfl, rfl⟩
  | encode p => exact execEncode_sameAnswer p o w hl
  | reservedCmd3 p => exact absurd rfl (hi p)
  | bitenc _ _ => cases hc
  | rstenc _ => cases hc
  | romread _ => cases hc
  | sym0 => cases hc
  | sym1 => cases hc
  | symr => cases hc

/-! ### Operands that fit no port -/

/-- Operands do not fit their ports exactly when `len` needs more than `LEN_W` bits or `space` more than `SPACE_W`. -/
theorem wellFormed_decodePorts_eq_false_iff (cfg : Config) (cmd : BitVec 2) (p : Operands) :
    (decodePorts cmd p).wellFormed cfg = false ↔ 2 ^ cfg.lenW ≤ p.len ∨ 2 ^ cfg.spaceW ≤ p.space := by
  have hw : (decodePorts cmd p).wellFormed cfg = (cfg.fitsLen p.len && cfg.fitsSpace p.space) := by
    rcases cmd_cases cmd with rfl | rfl | rfl | rfl <;> rfl
  simp [hw, Config.fitsLen, Config.fitsSpace, or_iff_not_imp_left]

/-- A packed word that has an instruction has the one of its `cmd` and operand fields (30_encoding.md R82). -/
theorem eq_decodePorts_of_decodeWord {w : Word} {i : Instr} (h : decodeWord w = .ok i) :
    i = decodePorts (w.extractLsb' 0 2) (unpackOperands w) := by
  unfold decodeWord at h
  split at h
  · injection h with h; exact h.symm
  · cases h

/-- A step on a command decides on the decoded instruction whether its operands fit. -/
theorem step_of_decode {s : State} {op : HostOp} {rest : List HostOp} {i : Instr} (hp : s.pending = op :: rest)
    (hr : op.hwReset = false) (hd : op.command.decode = .ok i) :
    step s = if i.wellFormed s.cfg then exec i (s.sample op rest) else .refused .operandTooWide := by
  simp [step, hp, runOp, hr, runCommand, hd]

/-- Settles O43: the step refuses what is not well formed, and ports and packed words decode by `decodePorts`. -/
theorem operandTooWideIsRefused : Obligations.OperandTooWideIsRefused := by
  refine ⟨fun s op rest i hp hr hd hw => ?_, fun cfg cmd p i hd => ?_, fun cfg w i hd => ?_⟩
  · rw [step_of_decode hp hr hd, hw, if_neg Bool.false_ne_true]
  · injection hd with hd
    exact hd ▸ wellFormed_decodePorts_eq_false_iff cfg cmd p
  · rw [eq_decodePorts_of_decodeWord hd]
    exact wellFormed_decodePorts_eq_false_iff cfg _ (unpackOperands w)

/-! ### Who writes the registers, the status and the wires -/

/-- Settles O49: of the commands `NOP` leaves the registers and the wires; of the other rows none writes `PHASE` or the
status, only `BITENC` moves the cursor, and the symbol words leave the wires. -/
theorem registersWrittenByTheirWritersOnly : Obligations.RegistersWrittenByTheirWritersOnly := by
  intro i s t h
  cases hc : i.isCommand with
  | true =>
    obtain ⟨-, ⟨p, rfl, rfl⟩ | ⟨p, rfl, rfl⟩ | ⟨p, rfl, -⟩⟩ := exec_command_next hc h
    · exact ⟨fun hn => absurd rfl hn, fun hn => absurd rfl hn, fun _ => rfl, fun hn => absurd rfl hn⟩
    · exact ⟨fun _ => .inr ⟨p, rfl⟩, fun _ => .inr (.inl ⟨p, rfl⟩), fun _ => rfl, fun hn => absurd rfl hn⟩
    · exact ⟨fun _ => .inl ⟨p, rfl⟩, fun _ => .inl ⟨p, rfl⟩, fun _ => rfl, fun _ => .inl ⟨p, rfl⟩⟩
  | false =>
    obtain ⟨-, ⟨len, space, rfl, rfl⟩ | ⟨space, rfl, rfl⟩ | ⟨a, e, rfl, -, rfl⟩ | ⟨e, -, rfl⟩⟩ :=
      exec_nonCommand_next hc h
    · exact ⟨fun hn => absurd (bitenc_phase len space s) hn, fun _ => .inr (.inr ⟨len, space, rfl⟩),
        fun hn => absurd (bitenc_status len space s) hn, fun _ => .inr (.inl ⟨len, space, rfl⟩)⟩
    · exact ⟨fun hn => absurd (rstenc_phase space s) hn, fun hn => absurd (rstenc_cursor space s) hn,
        fun hn => absurd (rstenc_status space s) hn, fun _ => .inr (.inr (.inl ⟨space, rfl⟩))⟩
    · exact ⟨fun hn => absurd rfl hn, fun hn => absurd rfl hn, fun hn => absurd rfl hn,
        fun _ => .inr (.inr (.inr ⟨a, rfl⟩))⟩
    · exact ⟨fun hn => absurd rfl hn, fun hn => absurd rfl hn, fun hn => absurd rfl hn, fun hn => absurd rfl hn⟩

/-! ### The position of a transmission -/

/-- `IDLE` is a position of every transmission. -/
theorem PositionInv.of_idle {len : Nat} {s : State} (h : s.idle = true) : PositionInv len s := by
  obtain ⟨hp, hc⟩ := s.idle_iff.mp h
  exact ⟨fun _ => .inr hc, fun hr => nomatch hp.symm.trans hr⟩

/-- An operation that leaves both registers keeps the position. -/
theorem PositionInv.congr {len : Nat} {s t : State} (h : PositionInv len s) (hp : t.phase = s.phase)
    (hc : t.cursor = s.cursor) : PositionInv len t := by
  simpa only [PositionInv, hp, hc] using h

/-- In `EMIT_DATA` a cursor before the end of the data is a position. -/
theorem PositionInv.of_emitData {len : Nat} {s : State} (hp : s.phase = .emitData) (hc : s.cursor < 8 * len) :
    PositionInv len s :=
  ⟨fun _ => .inl hc, fun hr => nomatch hp.symm.trans hr⟩

/-- In `EMIT_RESET` the cursor at the end of the data is a position. -/
theorem PositionInv.of_emitReset {len : Nat} {s : State} (hp : s.phase = .emitReset) (hc : s.cursor = 8 * len) :
    PositionInv len s :=
  ⟨fun hd => (nomatch hp.symm.trans hd), fun _ => hc⟩

/-- 10_state.md R32: an `ENCODE` with the same `LEN` keeps the position. Running out of slots in the data leaves a bit
owed, running out right after them leaves the cursor at their end, and completing leaves `IDLE`. -/
theorem PositionInv.encode {p : Operands} {s t : State} (h : PositionInv p.len s) (ht : execEncode p s = .next t) :
    PositionInv p.len t := by
  obtain ⟨-, ⟨-, rfl⟩ | ⟨-, hrow⟩⟩ := execEncode_cases ht
  · exact h.congr rfl rfl
  · rcases hrow with ⟨hp, hs, rfl⟩ | ⟨hp, hs, rfl⟩ | ⟨-, -, rfl⟩ | ⟨-, -, rfl⟩ | ⟨-, -, rfl⟩
    · refine .of_emitData (by simpa using hp) ?_
      simp only [State.respond_cursor, bitenc_cursor, bitencCount, State.clearOut_cursor]
      omega
    · refine .of_emitReset (by simp) ?_
      have hcur : s.cursor < 8 * p.len ∨ s.cursor = 0 := h.1 hp
      simp only [State.respond_cursor, rstenc_cursor, afterData_cursor]
      omega
    · exact .of_idle rfl
    · exact h.congr (by simp) (by simp)
    · exact .of_idle rfl

/-- Settles O51: `IDLE` is a position, `ENCODE` and `NOP` keep one, and both resets return to `IDLE`. -/
theorem positionInvariantIsKept : Obligations.PositionInvariantIsKept := by
  refine ⟨fun len s => .of_idle, fun p s t h ht => h.encode ht, fun len p s t h ht => ?_, fun s h => ?_⟩
  · rcases ht with ht | ht | rfl
    · obtain ⟨-, rfl⟩ := eq_of_requireLegal_next ht
      exact h.congr rfl rfl
    · exact eq_hwReset_of_exec_reset ht ▸ .of_idle rfl
    · exact .of_idle rfl
  · obtain ⟨hdata, hreset⟩ := h
    cases hp : s.phase with
    | emitData => exact .inl (s.idle_iff.mpr ⟨hp, (hdata hp).resolve_left (Nat.not_lt_zero _)⟩)
    | emitReset => exact .inr ⟨rfl, hreset hp⟩

/-! ### The state after reset -/

/-- Settles O1: the state after reset and the answer of `RESET` are states after a hardware reset too. -/
theorem resetStateIsIdle : Obligations.ResetStateIsIdle := by
  refine ⟨fun t ht => ?_, fun s => rfl, fun p s t h => eq_hwReset_of_exec_reset h ▸ rfl⟩
  have hreset : ∃ s : State, t = s.hwReset := by
    rcases ht with rfl | ht | ⟨p, s, ht⟩
    · exact ⟨State.reset, rfl⟩
    · exact ht
    · exact ⟨s, eq_hwReset_of_exec_reset ht⟩
  obtain ⟨s, rfl⟩ := hreset
  exact ⟨rfl, rfl, rfl, Nat.zero_div 8, Nat.zero_mod 8, rfl, rfl⟩

/-- Settles O53: the reference configuration is legal, and nothing has been presented or emitted. -/
theorem resetMeetsInvariant : Obligations.ResetMeetsInvariant where
  legal := by decide
  inMem_wf := rfl
  cursor_le := Nat.zero_le _
  nSyms_eq := rfl
  nSyms_lt := Nat.two_pow_pos _
  out_suffix := List.suffix_refl _
  alphabet := fun _ hw => absurd hw List.not_mem_nil
  status_ne := by decide

end Sys2Proof.Machine
end

section
/-! PROOFS of the family 20_memory.md: the order of the input bits, which of them an `ENCODE` reads, what is appended to
`OUT`, and that no operation writes `IN`. -/

namespace Sys2Proof

/-! ### Input bits are numbered by byte, most significant bit first -/

/-- 20_memory.md R56: the bits of a byte in the order in which they go out. -/
def msbFirst (v : Byte) : List Bool := (List.range 8).map fun k => v.getLsbD (7 - k)

/-- Bit `8*a + k` of a buffer is bit `7 - k` of its byte `a` (20_memory.md R56). -/
theorem bufferBit_of_getElem? {data : List Byte} {a k : Nat} {b : Byte} (hb : data[a]? = some b) (hk : k < 8) :
    bufferBit data (8 * a + k) = b.getLsbD (7 - k) := by
  have hbyte : (8 * a + k) / 8 = a := by omega
  have hbit : (8 * a + k) % 8 = k := by omega
  rw [bufferBit, hbyte, hbit, List.getD_eq_getElem?_getD, hb, Option.getD_some]

/-- After its first byte a buffer's bits are those of the rest. -/
theorem bufferBit_cons_add (v : Byte) (vs : List Byte) (c : Nat) : bufferBit (v :: vs) (8 + c) = bufferBit vs c := by
  have hbyte : (8 + c) / 8 = c / 8 + 1 := by omega
  rw [bufferBit, bufferBit, hbyte, List.getD_cons_succ, Nat.add_mod_left]

/-- The bits of a buffer, in order, are its bytes' bits, byte after byte. -/
theorem map_bufferBit_range (data : List Byte) :
    (List.range (8 * data.length)).map (bufferBit data) = data.flatMap msbFirst := by
  induction data with
  | nil => rfl
  | cons v vs ih =>
    have hfirst : (List.range 8).map (bufferBit (v :: vs)) = msbFirst v := by
      refine List.map_congr_left fun k hk => ?_
      have h := bufferBit_of_getElem? (data := v :: vs) (a := 0) rfl (List.mem_range.mp hk)
      rwa [Nat.mul_zero, Nat.zero_add] at h
    have hrest : bufferBit (v :: vs) ∘ (8 + ·) = bufferBit vs := funext (bufferBit_cons_add v vs)
    rw [List.length_cons, Nat.mul_succ, Nat.add_comm, List.range_add, List.map_append, List.map_map, hfirst, hrest, ih,
      List.flatMap_cons]

/-- The frame of a buffer: the symbols of its bytes' bits, byte after byte, then `SR`
(43_transmission_state_machine.md R180). -/
theorem Config.frame_eq (cfg : Config) (data : List Byte) : cfg.frame data =
    (data.flatMap msbFirst).map (fun x => cfg.romWord (RomIndex.ofBit x)) ++ [cfg.romWord .sr] := by
  rw [← map_bufferBit_range, List.map_map]
  rfl

/-- Settles O31: the frame of the three bytes `[g, r, b]`. -/
theorem pixelGoesOutInWireOrder : Obligations.PixelGoesOutInWireOrder :=
  fun cfg r g b => cfg.frame_eq (pixelBytes r g b)

/-- Membership in the ROM's contents, entry by entry (30_encoding.md R81). -/
theorem Config.mem_romWords_iff (cfg : Config) (w : Word) :
    w ∈ cfg.romWords ↔ w = cfg.romWord .s0 ∨ w = cfg.romWord .s1 ∨ w = cfg.romWord .sr := by
  simp [Config.romWords]

end Sys2Proof

namespace Sys2Proof.Machine

/-- Within the presented buffer an input bit is the buffer's (20_memory.md R51). -/
theorem State.inBit_eq_bufferBit {s : State} {data : List Byte} {c : Nat} (hin : s.inMem = Memory.ofBytes data)
    (hc : c < 8 * data.length) : s.inBit c = bufferBit data c := by
  have hbyte : c / 8 < data.length := by omega
  rw [State.inBit, State.inByte, hin, Memory.read_ofBytes, bufferBit, List.getD_eq_getElem?_getD,
    List.getElem?_eq_getElem hbyte, Option.getD_some, Option.getD_some]

/-- Settles O30: the bit lies within the buffer, whose bits are numbered so. -/
theorem inputBitsMsbFirst : Obligations.InputBitsMsbFirst := by
  intro s data a k b hin hb hk
  obtain ⟨ha, -⟩ := List.getElem?_eq_some_iff.mp hb
  rw [State.inBit_eq_bufferBit hin (by omega), bufferBit_of_getElem? hb hk]

/-! ### `ENCODE` reads the owed bits only -/

/-- The next `n` words depend on the ROM, the cursor and the `n` bits from the cursor on. -/
theorem State.nextWords_congr {s t : State} {n : Nat} (hcfg : t.cfg = s.cfg) (hcur : t.cursor = s.cursor)
    (hbit : ∀ c, s.cursor ≤ c → c < s.cursor + n → t.inBit c = s.inBit c) : t.nextWords n = s.nextWords n := by
  refine List.map_congr_left fun k hk => ?_
  have hk : k < n := List.mem_range.mp hk
  rw [State.bitWord, State.bitWord, hcfg, hcur, hbit _ (by omega) (by omega)]

/-- The words an `ENCODE` emits depend on the input only through the bits from `CURSOR` to `8*LEN - 1`
(20_memory.md R64). -/
theorem encodeWords_congr {p : Operands} {s t : State} (hcfg : t.cfg = s.cfg) (hph : t.phase = s.phase)
    (hcur : t.cursor = s.cursor) (hbit : ∀ c, s.cursor ≤ c → c < 8 * p.len → t.inBit c = s.inBit c) :
    encodeWords p t = encodeWords p s := by
  have hnext : t.nextWords (min p.space (8 * p.len - s.cursor)) = s.nextWords (min p.space (8 * p.len - s.cursor)) :=
    State.nextWords_congr hcfg hcur fun c h h' => hbit c h (by omega)
  have hdone : encodeDone p t = encodeDone p s := by simp only [encodeDone, hph, hcur]
  rw [encodeWords, encodeWords, hdone, hph, hcur, hcfg, hnext]

/-- Settles O16: the failure path reads no input; otherwise the words are the same, and the rest of the answer follows
from them, the operands and the registers. -/
theorem encodeReadsOnlyOwedBits : Obligations.EncodeReadsOnlyOwedBits := by
  intro p s m k hl hbit
  rcases encodeFails_or_ready p hl with hf | ⟨hr, hv⟩
  · exact ⟨_, _, execEncode_of_encodeFails hl hf,
      execEncode_of_encodeFails (s := { s with inMem := m, freeTick := k }) hl hf, rfl, rfl, rfl, rfl⟩
  · obtain ⟨t, ht, hph, hcur, hmem, hout, -⟩ := execEncode_summary p hr hv
    obtain ⟨t', ht', hph', hcur', hmem', hout', -⟩ :=
      execEncode_summary (s := { s with inMem := m, freeTick := k }) p hr hv
    have hwords : encodeWords p { s with inMem := m, freeTick := k } = encodeWords p s :=
      encodeWords_congr rfl rfl rfl hbit
    rw [hwords] at hmem' hout'
    exact ⟨t, t', ht, ht', hout'.trans hout.symm, hmem'.trans hmem.symm, hph'.trans hph.symm, hcur'.trans hcur.symm⟩

/-! ### `OUT` is only appended to -/

/-- From `s` to `t` the words `ws`, all of the ROM, were appended to `OUT`, and no other word changed. -/
def AppendsRomWords (s t : State) (ws : List Word) : Prop :=
  t.outMem = s.outMem ++ ws ∧ ∀ w ∈ ws, w ∈ s.cfg.romWords

/-- What leaves `OUT` appends nothing. -/
theorem AppendsRomWords.nil {s t : State} (h : t.outMem = s.outMem) : AppendsRomWords s t [] :=
  ⟨h.trans (List.append_nil _).symm, fun _ hw => absurd hw List.not_mem_nil⟩

/-- The words of `RSTENC` are ROM words (42_reset_latch_encoder.md R151). -/
theorem rstencWords_alphabet (space : Nat) (s : State) : ∀ w ∈ rstencWords space s, w ∈ s.cfg.romWords := by
  intro w hw
  unfold rstencWords at hw
  split at hw
  · exact List.mem_singleton.mp hw ▸ s.cfg.romWord_mem .sr
  · exact absurd hw List.not_mem_nil

/-- A command appends exactly the words it drives on `out` (20_memory.md R53). -/
theorem exec_command_appends_out {i : Instr} (hc : i.isCommand = true) {s t : State} (h : exec i s = .next t) :
    AppendsRomWords s t t.outputs.out := by
  obtain ⟨hl, ⟨p, rfl, rfl⟩ | ⟨p, rfl, rfl⟩ | ⟨p, rfl, ht⟩⟩ := exec_command_next hc h
  · exact .nil rfl
  · exact .nil rfl
  · rcases encodeFails_or_ready p hl with hf | ⟨hr, hv⟩
    · cases (execEncode_of_encodeFails hl hf).symm.trans ht
      exact .nil rfl
    · obtain ⟨t', ht', -, -, hmem, hout, -⟩ := execEncode_summary p hr hv
      cases ht'.symm.trans ht
      rw [hout]
      exact ⟨hmem, encodeWords_alphabet p s⟩

/-- A row that is not a command appends the words of the bits it encodes, `SR`, its own symbol, or nothing. -/
theorem exec_nonCommand_appends {i : Instr} (hc : i.isCommand = false) {s t : State} (h : exec i s = .next t) :
    ∃ ws, AppendsRomWords s t ws := by
  obtain ⟨-, ⟨len, space, rfl, rfl⟩ | ⟨space, rfl, rfl⟩ | ⟨a, e, rfl, -, rfl⟩ | ⟨e, -, rfl⟩⟩ :=
    exec_nonCommand_next hc h
  · exact ⟨_, bitenc_outMem len space s, s.nextWords_alphabet _⟩
  · exact ⟨_, rstenc_outMem space s, rstencWords_alphabet space s⟩
  · exact ⟨_, .nil rfl⟩
  · exact ⟨_, rfl, fun w hw => List.mem_singleton.mp hw ▸ s.cfg.romWord_mem e⟩

/-- A step appends exactly the words it drives on `out`: sampling and hardware reset leave `OUT`. -/
theorem step_appends_out {s t : State} (h : step s = .next t) : AppendsRomWords s t t.outputs.out := by
  rcases step_next_cases h with ⟨-, ht⟩ | ⟨op, rest, -, -, -, rfl⟩ | ⟨op, rest, i, -, -, -, hc, -, ht⟩
  · exact exec_command_appends_out rfl ht
  · exact .nil (by simp)
  · simpa only [AppendsRomWords, State.sample_outMem, State.sample_cfg] using exec_command_appends_out hc ht

/-- Settles O47: commands and the other rows append ROM words, and a step appends what it drives on `out`. -/
theorem onlyRomWordsAreAppended : Obligations.OnlyRomWordsAreAppended := by
  simp only [Obligations.OnlyRomWordsAreAppended, ← Config.mem_romWords_iff]
  refine ⟨fun i s t h => ?_, fun s t h => step_appends_out h⟩
  cases hc : i.isCommand with
  | true => exact ⟨_, exec_command_appends_out hc h⟩
  | false => exact exec_nonCommand_appends hc h

/-! ### No operation writes `IN` -/

/-- Whether an operation samples `IN` (assumption 10): `BITENC` does, and an `ENCODE` that runs it. -/
def samplesInput (i : Instr) (s : State) : Prop :=
  (∃ len space, i = .bitenc len space) ∨
    ∃ p, i = .encode p ∧ s.ready = true ∧ p.dataValid = true ∧ s.phase = .emitData

/-- From `s` to `t` neither `IN` nor the host's list changed, and `IN` was sampled once where `sampled` holds, and
else not at all. -/
def LeavesInput (s t : State) (sampled : Prop) : Prop :=
  t.inMem = s.inMem ∧ t.pending = s.pending ∧
    ((sampled ∧ t.freeTick = s.freeTick + 1) ∨ (¬ sampled ∧ t.freeTick = s.freeTick))

/-- A block that is ready and presented an input does not fail (60_exceptions.md R201). -/
theorem not_ready_of_encodeFails {p : Operands} {s : State} (hf : encodeFails s.cfg p.dataValid = true) :
    ¬ (s.ready = true ∧ p.dataValid = true) := by
  rintro ⟨hr, hv⟩
  obtain ⟨-, hb, hr⟩ := s.ready_iff.mp hr
  exact absurd hf (by rw [State.encodeFails_of_ready hb hr hv]; exact Bool.false_ne_true)

/-- An `ENCODE` samples `IN` exactly where it does not fail and is in `EMIT_DATA`. -/
theorem execEncode_leavesInput {p : Operands} {s t : State} (h : execEncode p s = .next t) :
    LeavesInput s t (s.ready = true ∧ p.dataValid = true ∧ s.phase = .emitData) := by
  obtain ⟨hl, -⟩ := execEncode_cases h
  rcases encodeFails_or_ready p hl with hf | ⟨hr, hv⟩
  · cases (execEncode_of_encodeFails hl hf).symm.trans h
    exact ⟨rfl, rfl, .inr ⟨fun ⟨hr, hv, _⟩ => not_ready_of_encodeFails hf ⟨hr, hv⟩, rfl⟩⟩
  · obtain ⟨t', ht', -, -, -, -, -, hin, hpend, htick⟩ := execEncode_summary p hr hv
    cases ht'.symm.trans h
    refine ⟨hin, hpend, ?_⟩
    by_cases hp : s.phase = .emitData
    · exact .inl ⟨⟨hr, hv, hp⟩, by rw [htick, if_pos hp]⟩
    · exact .inr ⟨fun ⟨_, _, hd⟩ => hp hd, by rw [htick, if_neg hp, Nat.add_zero]⟩

/-- Every operation leaves `IN` and the host's list, and samples `IN` as said. -/
theorem exec_leavesInput {i : Instr} {s t : State} (h : exec i s = .next t) :
    LeavesInput s t (samplesInput i s) := by
  cases hc : i.isCommand with
  | true =>
    obtain ⟨-, ⟨p, rfl, rfl⟩ | ⟨p, rfl, rfl⟩ | ⟨p, rfl, ht⟩⟩ := exec_command_next hc h
    · exact ⟨rfl, rfl, .inr ⟨by simp [samplesInput], rfl⟩⟩
    · exact ⟨rfl, rfl, .inr ⟨by simp [samplesInput], rfl⟩⟩
    · simpa [samplesInput] using execEncode_leavesInput ht
  | false =>
    obtain ⟨-, ⟨len, space, rfl, rfl⟩ | ⟨space, rfl, rfl⟩ | ⟨a, e, rfl, -, rfl⟩ | ⟨e, hi, rfl⟩⟩ :=
      exec_nonCommand_next hc h
    · exact ⟨bitenc_inMem len space s, bitenc_pending len space s, .inl ⟨.inl ⟨len, space, rfl⟩, rfl⟩⟩
    · exact ⟨rstenc_inMem space s, rstenc_pending space s, .inr ⟨by simp [samplesInput], rstenc_freeTick space s⟩⟩
    · exact ⟨rfl, rfl, .inr ⟨by simp [samplesInput], rfl⟩⟩
    · refine ⟨rfl, rfl, .inr ⟨?_, rfl⟩⟩
      rcases hi with ⟨rfl, -⟩ | ⟨rfl, -⟩ | ⟨rfl, -⟩ <;> simp [samplesInput]

/-- Settles O48: `IN` is not written at all, and the counter tells whether the operation samples it. -/
theorem instructionsLeaveInputAlone : Obligations.InstructionsLeaveInputAlone := by
  intro i s t h
  obtain ⟨hin, hpend, htick⟩ := exec_leavesInput h
  refine ⟨fun a => by rw [hin], hpend, ?_⟩
  change _ ∧ (_ ↔ samplesInput i s)
  rcases htick with ⟨hs, htick⟩ | ⟨hs, htick⟩
  · exact ⟨.inr htick, fun _ => hs, fun _ => htick⟩
  · exact ⟨.inl htick, fun hn => absurd (htick.symm.trans hn) (Nat.ne_of_lt (Nat.lt_succ_self _)),
      fun h => absurd h hs⟩

end Sys2Proof.Machine
end

section
/-! PROOFS of the family 30_encoding.md: packed command words, symbol words and their names, ROM addresses, and the
words and commands that are refused. -/

namespace Sys2Proof

/-! ### Packed command words -/

/-- A word with zero padding decodes to the command of its fields (30_encoding.md R82). -/
theorem decodeWord_of_padding_eq {w : Word} (h : w.extractLsb' 3 5 = 0#5) :
    decodeWord w = .ok (decodePorts (w.extractLsb' 0 2) (unpackOperands w)) :=
  if_pos h

/-- A word with any other padding decodes to nothing (30_encoding.md R89). -/
theorem decodeWord_of_padding_ne {w : Word} (h : w.extractLsb' 3 5 ≠ 0#5) : decodeWord w = .error .nonZeroPadding :=
  if_neg h

/-- The words that decode are the ones with zero padding. -/
theorem exists_decodeWord_iff (w : Word) : (∃ i, decodeWord w = .ok i) ↔ w.extractLsb' 3 5 = 0#5 := by
  refine ⟨fun ⟨i, hi⟩ => ?_, fun h => ⟨_, decodeWord_of_padding_eq h⟩⟩
  by_contra h
  rw [decodeWord_of_padding_ne h] at hi
  cases hi

/-- A packed word decodes to the command packed, where its operands fit (30_encoding.md R82). -/
theorem decodeWord_packCommand (cmd : BitVec 2) {p : Operands} (h : p.fitsWord = true) :
    decodeWord (packCommand cmd p) = .ok (decodePorts cmd p) := by
  rw [decodeWord_of_padding_eq (extract_padding_packCommand cmd p), extract_cmd_packCommand,
    unpackOperands_packCommand cmd h]

/-- Encoding a command packs it, where its operands fit. -/
theorem encode_decodePorts (cfg : Config) (cmd : BitVec 2) {p : Operands} (h : p.fitsWord = true) :
    encode cfg (decodePorts cmd p) = some (packCommand cmd p) := by
  rcases cmd_cases cmd with rfl | rfl | rfl | rfl <;> exact if_pos h

/-- Every command is selected by a value of `cmd` (30_encoding.md R82, R87). -/
theorem exists_decodePorts_of_isCommand {i : Instr} (h : i.isCommand = true) : ∃ cmd p, i = decodePorts cmd p := by
  cases i with
  | nop p => exact ⟨0#2, p, rfl⟩
  | encode p => exact ⟨1#2, p, rfl⟩
  | reset p => exact ⟨2#2, p, rfl⟩
  | reservedCmd3 p => exact ⟨3#2, p, rfl⟩
  | bitenc _ _ => cases h
  | rstenc _ => cases h
  | romread _ => cases h
  | sym0 => cases h
  | sym1 => cases h
  | symr => cases h

/-- With ports of 8 and 16 bits the operands of a well-formed command fit a packed word. -/
theorem fitsWord_of_wellFormed {cfg : Config} {cmd : BitVec 2} {p : Operands} (hlen : cfg.lenW = 8)
    (hspace : cfg.spaceW = 16) (h : (decodePorts cmd p).wellFormed cfg = true) : p.fitsWord = true := by
  have hfits : ¬ (2 ^ cfg.lenW ≤ p.len ∨ 2 ^ cfg.spaceW ≤ p.space) := fun hwide =>
    Bool.false_ne_true (((Machine.wellFormed_decodePorts_eq_false_iff cfg cmd p).mpr hwide).symm.trans h)
  rw [hlen, hspace] at hfits
  exact decide_eq_true ⟨by omega, by omega⟩

/-- Settles O37: packing and unpacking are inverse to each other, on well-formed commands and on words with zero
padding. -/
theorem commandWordRoundTrip : Obligations.CommandWordRoundTrip := by
  refine ⟨fun cfg i hlen hspace hc hw => ?_, fun cfg w i hi => ?_, exists_decodeWord_iff⟩
  · obtain ⟨cmd, p, rfl⟩ := exists_decodePorts_of_isCommand hc
    have hfits := fitsWord_of_wellFormed hlen hspace hw
    exact ⟨_, encode_decodePorts cfg cmd hfits, decodeWord_packCommand cmd hfits⟩
  · have hpad := (exists_decodeWord_iff w).mp ⟨i, hi⟩
    rw [Machine.eq_decodePorts_of_decodeWord hi, encode_decodePorts cfg _ (fitsWord_unpackOperands w),
      packCommand_unpackOperands hpad]
    exact ⟨isCommand_decodePorts _ _, rfl⟩

/-! ### Symbol words -/

/-- A concatenation's value: the upper part counts in units of the lower part's range. -/
theorem toNat_append {m n : Nat} (x : BitVec m) (y : BitVec n) : (x ++ y).toNat = x.toNat * 2 ^ n + y.toNat := by
  rw [BitVec.toNat_append, ← Nat.shiftLeft_add_eq_or_of_lt y.isLt, Nat.shiftLeft_eq]

/-- The value of a symbol word, from its fields (30_encoding.md R80). -/
theorem Symbol.toNat_toWord (y : Symbol) : y.toWord.toNat =
    y.level1.toNat * 2 ^ 31 + y.duration1.toNat * 2 ^ 16 + y.level0.toNat * 2 ^ 15 + y.duration0.toNat := by
  rw [Symbol.toWord, toNat_append, toNat_append, toNat_append, BitVec.toNat_ofBool, BitVec.toNat_ofBool]
  omega

/-- Settles O28: the fields of a word and its value. -/
theorem symbolWordIsBijection : Obligations.SymbolWordIsBijection :=
  ⟨Symbol.ofWord_toWord, Symbol.toWord_ofWord, Symbol.toNat_toWord⟩

/-- The instruction whose word stands in the ROM as this entry (30_encoding.md R88). -/
def RomIndex.instr : RomIndex → Instr
  | .s0 => .sym0
  | .s1 => .sym1
  | .sr => .symr

/-- The word of an entry's instruction is the entry's (30_encoding.md R88). -/
theorem encode_romInstr (cfg : Config) (e : RomIndex) : encode cfg e.instr = some (cfg.romWord e) := by
  cases e <;> rfl

/-- Of the rows that are not commands only the symbol words have an encoding (30_encoding.md R87). -/
theorem eq_romInstr_of_encode {cfg : Config} {i : Instr} {w : Word} (hc : i.isCommand = false)
    (h : encode cfg i = some w) : ∃ e : RomIndex, i = e.instr ∧ w = cfg.romWord e := by
  cases i with
  | nop _ => cases hc
  | encode _ => cases hc
  | reset _ => cases hc
  | reservedCmd3 _ => cases hc
  | bitenc _ _ => cases h
  | rstenc _ => cases h
  | romread _ => cases h
  | sym0 => cases h; exact ⟨.s0, rfl, rfl⟩
  | sym1 => cases h; exact ⟨.s1, rfl, rfl⟩
  | symr => cases h; exact ⟨.sr, rfl, rfl⟩

/-- In a legal configuration a ROM word is read back to the name of its entry: the three words differ, so no earlier
row of the decoder takes it. -/
theorem decodeSymbol_romWord {cfg : Config} (h : cfg.legal = true) (e : RomIndex) :
    decodeSymbol cfg (cfg.romWord e) = .ok e.instr := by
  have hne : ∀ f, e ≠ f → cfg.romWord e ≠ cfg.romWord f := fun f hf hw => hf (Config.romWord_injective h hw)
  cases e with
  | s0 => exact if_pos rfl
  | s1 => exact (if_neg (hne .s0 nofun)).trans (if_pos rfl)
  | sr => exact (if_neg (hne .s0 nofun)).trans ((if_neg (hne .s1 nofun)).trans (if_pos rfl))

/-- A ROM word is the word of an entry. -/
theorem Config.exists_of_mem_romWords {cfg : Config} {w : Word} (h : w ∈ cfg.romWords) : ∃ e, w = cfg.romWord e := by
  rcases (cfg.mem_romWords_iff w).mp h with h | h | h
  · exact ⟨.s0, h⟩
  · exact ⟨.s1, h⟩
  · exact ⟨.sr, h⟩

/-- A word outside the ROM has no name (30_encoding.md R81). -/
theorem decodeSymbol_of_notMem {cfg : Config} {w : Word} (h : w ∉ cfg.romWords) :
    decodeSymbol cfg w = .error .notARomSymbol := by
  have hne : ∀ e, w ≠ cfg.romWord e := fun e he => h (he ▸ cfg.romWord_mem e)
  exact (if_neg (hne .s0)).trans ((if_neg (hne .s1)).trans (if_neg (hne .sr)))

/-- Settles O38: the words with a name are the ROM's, and each is read back to its own entry. -/
theorem symbolWordRoundTrip : Obligations.SymbolWordRoundTrip := by
  refine fun cfg hl => ⟨fun i w hc hi => ?_, fun i w hi => ?_, fun w => decodeSymbol_of_notMem⟩
  · obtain ⟨e, rfl, rfl⟩ := eq_romInstr_of_encode hc hi
    exact decodeSymbol_romWord hl e
  · have hw : w ∈ cfg.romWords := by
      by_contra hw
      cases (decodeSymbol_of_notMem hw).symm.trans hi
    obtain ⟨e, rfl⟩ := Config.exists_of_mem_romWords hw
    cases (decodeSymbol_romWord hl e).symm.trans hi
    exact ⟨encode_romInstr cfg e, hw⟩

/-- Settles O39: each command word is the packed word of its command, and each symbol word the reference ROM's. -/
theorem tableWordsDecode : Obligations.TableWordsDecode := by
  have hl : Config.reference.legal = true := by decide
  exact ⟨decodeWord_packCommand 0#2 (p := ⟨false, 0, 0⟩) rfl, decodeWord_packCommand 2#2 (p := ⟨false, 0, 0⟩) rfl,
    decodeWord_packCommand 1#2 (p := ⟨true, 3, 25⟩) rfl, decodeWord_packCommand 1#2 (p := ⟨false, 3, 12⟩) rfl,
    decodeWord_packCommand 3#2 (p := ⟨false, 0, 0⟩) rfl,
    decodeSymbol_romWord hl .s0, decodeSymbol_romWord hl .s1, decodeSymbol_romWord hl .sr⟩

/-! ### ROM addresses -/

/-- Zero extension keeps the value of a bit (30_encoding.md R85). -/
theorem toNat_romAddrOfBit (b : Bool) : (romAddrOfBit b).toNat = b.toNat := by
  cases b <;> rfl

/-- The entry a data bit selects has the address formed from it. -/
theorem RomIndex.addr_ofBit (b : Bool) : (RomIndex.ofBit b).addr = romAddrOfBit b := by
  cases b <;> rfl

/-- Settles O29: the address of a bit, what stands there, and the address of `SR`. -/
theorem romAddressIsZeroExtendedBit : Obligations.RomAddressIsZeroExtendedBit :=
  fun b => ⟨toNat_romAddrOfBit b, RomIndex.ofAddr_romAddrOfBit b, RomIndex.addr_ofBit b, rfl⟩

end Sys2Proof

namespace Sys2Proof.Machine

/-! ### Symbol words run as instructions -/

/-- A symbol word run as an instruction emits its entry's word (assumption 7). -/
theorem exec_romInstr (e : RomIndex) {s : State} (h : s.cfg.legal = true) :
    exec e.instr s = .next (s.emit (s.cfg.romWord e)) := by
  cases e <;> exact requireLegal_of_legal h _

/-- An emitted word's waveform follows what was on the line (40_symbol_rom.md R118). -/
theorem State.waveform_emit (s : State) (w : Word) : (s.emit w).waveform = s.waveform ++ (Symbol.ofWord w).wave := by
  have hword : wave [w] = (Symbol.ofWord w).wave := List.flatMap_singleton _ _
  rw [State.waveform, State.emit_outMem, wave_append, hword, State.waveform]

/-- Settles O25: the three instructions emit the words of the three entries, and a ROM word denotes the ROM's Symbol. -/
theorem symbolWordsAreEmittedWhole : Obligations.SymbolWordsAreEmittedWhole := by
  intro i e s hl hi
  have hie : i = e.instr := by rcases hi with ⟨rfl, rfl⟩ | ⟨rfl, rfl⟩ | ⟨rfl, rfl⟩ <;> rfl
  refine ⟨s.emit (s.cfg.romWord e), hie ▸ exec_romInstr e hl, ?_, rfl⟩
  rw [State.waveform_emit, Config.ofWord_romWord]

/-! ### Refusals -/

/-- Settles O5: the reserved command is never guarded, and is what is left of the four values of `cmd`. -/
theorem reservedCommandIsRefused : Obligations.ReservedCommandIsRefused :=
  ⟨fun _ _ => rfl, fun _ => rfl⟩

/-- In a legal configuration every command but the reserved one answers a next state (60_exceptions.md R200). -/
theorem exec_command_next_of_legal {i : Instr} (hc : i.isCommand = true) (hi : ∀ p, i ≠ .reservedCmd3 p) {s : State}
    (hl : s.cfg.legal = true) : ∃ t, exec i s = .next t := by
  cases i with
  | nop p => exact ⟨_, exec_nop p hl⟩
  | encode p => exact execEncode_next p hl
  | reset p => exact ⟨_, exec_reset p hl⟩
  | reservedCmd3 p => exact absurd rfl (hi p)
  | bitenc _ _ => cases hc
  | rstenc _ => cases hc
  | romread _ => cases hc
  | sym0 => cases hc
  | sym1 => cases hc
  | symr => cases hc

/-- Why a command that reached `exec` can be refused: it is the reserved one, or the configuration is illegal. -/
theorem exec_command_refused {i : Instr} (hc : i.isCommand = true) {s : State} {r : Refusal}
    (h : exec i s = .refused r) :
    (∃ p, i = .reservedCmd3 p ∧ r = .reservedCommand) ∨ (s.cfg.legal = false ∧ r = .illegalConfiguration) := by
  by_cases hres : ∃ p, i = .reservedCmd3 p
  · obtain ⟨p, rfl⟩ := hres
    injection h with h
    exact .inl ⟨p, rfl, h.symm⟩
  · have hi : ∀ p, i ≠ .reservedCmd3 p := fun p hp => hres ⟨p, hp⟩
    cases hl : s.cfg.legal with
    | false =>
      injection (exec_of_illegal hl hi).symm.trans h with h
      exact .inr ⟨rfl, h.symm⟩
    | true =>
      obtain ⟨t, ht⟩ := exec_command_next_of_legal hc hi hl
      cases ht.symm.trans h

/-- A step on a word without an instruction is refused by the decoder's reason (30_encoding.md R89). -/
theorem step_of_decode_error {s : State} {op : HostOp} {rest : List HostOp} {e : DecodeError}
    (hp : s.pending = op :: rest) (hr : op.hwReset = false) (hd : op.command.decode = .error e) :
    step s = .refused (refusalOf e) := by
  simp [step, hp, runOp, hr, runCommand, hd]

/-- A step on a command that decodes is never refused for its padding. -/
theorem step_ne_nonZeroPadding_of_decode {s : State} {op : HostOp} {rest : List HostOp} {i : Instr}
    (hp : s.pending = op :: rest) (hr : op.hwReset = false) (hd : op.command.decode = .ok i) :
    step s ≠ .refused .nonZeroPadding := by
  rw [step_of_decode hp hr hd]
  split
  · intro h
    rcases exec_command_refused (Command.isCommand_of_decode hd) h with ⟨-, -, h⟩ | ⟨-, h⟩ <;> cases h
  · nofun

/-- Settles O42: the decoder refuses exactly the words with non-zero padding, and nothing after it gives that reason. -/
theorem nonZeroPaddingIsRefused : Obligations.NonZeroPaddingIsRefused := by
  intro s op rest w hp hr hw
  have hd : op.command.decode = decodeWord w := by rw [hw]; rfl
  refine ⟨fun h hpad => ?_, fun hpad => ?_⟩
  · exact step_ne_nonZeroPadding_of_decode hp hr (hd.trans (decodeWord_of_padding_eq hpad)) h
  · exact step_of_decode_error hp hr (hd.trans (decodeWord_of_padding_ne hpad))

end Sys2Proof.Machine
end

section
/-! PROOFS of the family 40_symbol_rom.md: the contents of the ROM and that they never change, the waveform of symbols
and of a whole transmission, and the levels of the line around it. -/

namespace Sys2Proof

/-! ### The contents of the ROM, uniformly in the entry -/

/-- The level of an entry's half 0: the bit symbols start high, `SR` does not (40_symbol_rom.md R111). -/
def RomIndex.firstLevel : RomIndex → Bool
  | .s0 => true
  | .s1 => true
  | .sr => false

/-- The entry of a data bit starts high (40_symbol_rom.md R112). -/
@[simp] theorem RomIndex.firstLevel_ofBit (b : Bool) : (RomIndex.ofBit b).firstLevel = true := by
  cases b <;> rfl

/-- The configured width of an entry's half 0, in ns (40_symbol_rom.md R111). -/
def Config.firstNs (cfg : Config) : RomIndex → Nat
  | .s0 => cfg.t0hNs
  | .s1 => cfg.t1hNs
  | .sr => cfg.rst0Ns

/-- The configured width of an entry's half 1, in ns (40_symbol_rom.md R111). -/
def Config.secondNs (cfg : Config) : RomIndex → Nat
  | .s0 => cfg.t0lNs
  | .s1 => cfg.t1lNs
  | .sr => cfg.rst1Ns

/-- The table of 40_symbol_rom.md R111 as one row: half 1 of every entry is low. -/
theorem Config.romSymbol_eq (cfg : Config) (e : RomIndex) : cfg.romSymbol e =
    ⟨e.firstLevel, cfg.duration (cfg.firstNs e), false, cfg.duration (cfg.secondNs e)⟩ := by
  cases e <;> rfl

/-- In a legal configuration both durations of every entry fit their fields (00_scope.md R8). -/
theorem Config.ticks_le_of_legal {cfg : Config} (h : cfg.legal = true) (e : RomIndex) :
    cfg.ticks (cfg.firstNs e) ≤ 32767 ∧ cfg.ticks (cfg.secondNs e) ≤ 32767 := by
  obtain ⟨-, ⟨-, h0h⟩, ⟨-, h0l⟩, ⟨-, h1h⟩, ⟨-, h1l⟩, -, hr, -⟩ := cfg.legal_iff.mp h
  cases e with
  | s0 => exact ⟨h0h, h0l⟩
  | s1 => exact ⟨h1h, h1l⟩
  | sr => exact hr

/-- In a legal configuration both halves of a bit symbol last at least one tick (30_encoding.md R81). -/
theorem Config.one_le_ticks_ofBit {cfg : Config} (h : cfg.legal = true) (b : Bool) :
    1 ≤ cfg.ticks (cfg.firstNs (RomIndex.ofBit b)) ∧ 1 ≤ cfg.ticks (cfg.secondNs (RomIndex.ofBit b)) := by
  obtain ⟨-, ⟨h0h, -⟩, ⟨h0l, -⟩, ⟨h1h, -⟩, ⟨h1l, -⟩, -⟩ := cfg.legal_iff.mp h
  cases b with
  | false => exact ⟨h0h, h0l⟩
  | true => exact ⟨h1h, h1l⟩

/-- In a legal configuration the word of an entry holds its durations exactly (30_encoding.md R86). -/
theorem Config.romWord_durations {cfg : Config} (h : cfg.legal = true) (e : RomIndex) :
    (Symbol.ofWord (cfg.romWord e)).duration0.toNat = cfg.ticks (cfg.firstNs e) ∧
    (Symbol.ofWord (cfg.romWord e)).duration1.toNat = cfg.ticks (cfg.secondNs e) := by
  obtain ⟨hfirst, hsecond⟩ := Config.ticks_le_of_legal h e
  rw [Config.ofWord_romWord, Config.romSymbol_eq]
  exact ⟨Config.duration_toNat hfirst, Config.duration_toNat hsecond⟩

/-- The word of an entry holds its levels. -/
theorem Config.romWord_levels (cfg : Config) (e : RomIndex) :
    (Symbol.ofWord (cfg.romWord e)).level0 = e.firstLevel ∧ (Symbol.ofWord (cfg.romWord e)).level1 = false := by
  rw [Config.ofWord_romWord, Config.romSymbol_eq]
  exact ⟨rfl, rfl⟩

/-- An entry is read at its own address (20_memory.md R52). -/
theorem RomIndex.ofAddr_addr (e : RomIndex) : RomIndex.ofAddr e.addr = some e := by
  cases e <;> rfl

/-- Settles O26: each row of the table is the row of one entry. -/
theorem romHoldsConfiguredSymbols : Obligations.RomHoldsConfiguredSymbols := by
  refine ⟨fun cfg a e l0 ns0 ns1 h hrow => ?_, rfl, fun e => ?_⟩
  · have hentry : a = e.addr ∧ l0 = e.firstLevel ∧ ns0 = cfg.firstNs e ∧ ns1 = cfg.secondNs e := by
      rcases hrow with ⟨ha, rfl, hrest⟩ | ⟨ha, rfl, hrest⟩ | ⟨ha, rfl, hrest⟩ <;> exact ⟨ha, hrest⟩
    obtain ⟨rfl, rfl, rfl, rfl⟩ := hentry
    obtain ⟨hlevel0, hlevel1⟩ := cfg.romWord_levels e
    obtain ⟨hdur0, hdur1⟩ := Config.romWord_durations h e
    exact ⟨e.ofAddr_addr, rfl, hlevel0, hdur0, hlevel1, hdur1⟩
  · cases e with
    | s0 => exact .inl rfl
    | s1 => exact .inr (.inl rfl)
    | sr => exact .inr (.inr rfl)

/-- Settles O27: the levels stand in the table, and the orders of the durations are bounds on a configuration. -/
theorem bitSymbolsAreHighThenLow : Obligations.BitSymbolsAreHighThenLow := by
  intro cfg h
  obtain ⟨-, -, -, -, -, hshorter, -, hreset⟩ := cfg.legal_iff.mp h
  have hdur := Config.romWord_durations h
  refine ⟨?_, ?_, ?_⟩
  · rintro b _ rfl
    obtain ⟨hlevel0, hlevel1⟩ := cfg.romWord_levels (RomIndex.ofBit b)
    obtain ⟨hfirst, hsecond⟩ := Config.one_le_ticks_ofBit h b
    exact ⟨hlevel0.trans (RomIndex.firstLevel_ofBit b), hlevel1, (hdur _).1 ▸ hfirst, (hdur _).2 ▸ hsecond⟩
  · rw [(hdur .s0).1, (hdur .s1).1]
    exact hshorter
  · rintro _ rfl
    rw [(hdur .sr).1, (hdur .sr).2]
    exact ⟨(cfg.romWord_levels .sr).1, (cfg.romWord_levels .sr).2, hreset⟩

/-- Settles O33: a width is its whole ticks and a remainder of less than one tick. -/
theorem durationsTruncate : Obligations.DurationsTruncate := by
  intro cfg ns htick hfits
  rw [Config.duration_toNat hfits, Config.nanoseconds, Config.ticks]
  refine ⟨Nat.div_mul_le_self ns cfg.tickNs, ?_⟩
  rw [← Nat.succ_mul, Nat.mul_comm]
  exact Nat.lt_mul_div_succ ns htick

/-! ### Waveforms -/

/-- The waveform of one word is its Symbol's (40_symbol_rom.md R118). -/
theorem wave_singleton (w : Word) : wave [w] = (Symbol.ofWord w).wave := List.flatMap_singleton _ _

/-- A Symbol's waveform lasts as long as its two halves (40_symbol_rom.md R117). -/
theorem Symbol.length_wave (y : Symbol) : y.wave.length = y.length := by
  simp [Symbol.wave, Symbol.length]

/-- Settles O34: a word denotes its Symbol, and a sequence's waveform is built symbol by symbol. -/
theorem waveformsConcatenate : Obligations.WaveformsConcatenate := by
  have hword : ∀ y : Symbol, wave [y.toWord] = y.wave := fun y => by rw [wave_singleton, Symbol.ofWord_toWord]
  exact ⟨hword, fun y => (congrArg List.length (hword y)).trans y.length_wave, wave_append⟩

/-- The pulse of an entry: half 0 at its level, then low (40_symbol_rom.md R117). -/
def Config.pulse (cfg : Config) (e : RomIndex) : List Bool :=
  List.replicate (cfg.ticks (cfg.firstNs e)) e.firstLevel ++ List.replicate (cfg.ticks (cfg.secondNs e)) false

/-- In a legal configuration the waveform of a ROM word is its entry's pulse. -/
theorem Config.wave_romWord {cfg : Config} (h : cfg.legal = true) (e : RomIndex) :
    wave [cfg.romWord e] = cfg.pulse e := by
  obtain ⟨hfirst, hsecond⟩ := Config.ticks_le_of_legal h e
  rw [wave_singleton, Config.ofWord_romWord, Config.romSymbol_eq, Symbol.wave, Config.duration_toNat hfirst,
    Config.duration_toNat hsecond, Config.pulse]

/-- The pulse of `SR` is one low level (40_symbol_rom.md R119). -/
theorem Config.pulse_sr (cfg : Config) :
    cfg.pulse .sr = List.replicate (cfg.ticks cfg.rst0Ns + cfg.ticks cfg.rst1Ns) false :=
  List.replicate_append_replicate

/-- The pulse of a data bit, with the configured widths of the bit's value (40_symbol_rom.md R120). -/
theorem Config.pulse_ofBit (cfg : Config) (b : Bool) : cfg.pulse (RomIndex.ofBit b) =
    if b then List.replicate (cfg.ticks cfg.t1hNs) true ++ List.replicate (cfg.ticks cfg.t1lNs) false
    else List.replicate (cfg.ticks cfg.t0hNs) true ++ List.replicate (cfg.ticks cfg.t0lNs) false := by
  cases b <;> rfl

/-- The length of a data bit's pulse (40_symbol_rom.md R120). -/
theorem Config.length_pulse_ofBit (cfg : Config) (b : Bool) : (cfg.pulse (RomIndex.ofBit b)).length =
    if b then cfg.ticks cfg.t1hNs + cfg.ticks cfg.t1lNs else cfg.ticks cfg.t0hNs + cfg.ticks cfg.t0lNs := by
  rw [Config.pulse, List.length_append, List.length_replicate, List.length_replicate]
  cases b <;> rfl

/-- The pulse of a data bit starts with a high tick, so it is a high half of some length and one tick, then low. -/
theorem Config.exists_pulse_ofBit_eq {cfg : Config} (h : cfg.legal = true) (b : Bool) :
    ∃ k, cfg.pulse (RomIndex.ofBit b) =
      List.replicate (k + 1) true ++ List.replicate (cfg.ticks (cfg.secondNs (RomIndex.ofBit b))) false := by
  obtain ⟨k, hk⟩ := Nat.exists_eq_add_of_le' (Config.one_le_ticks_ofBit h b).1
  exact ⟨k, by rw [Config.pulse, hk, RomIndex.firstLevel_ofBit]⟩

/-- The word of the data bit number `c` of a buffer (43_transmission_state_machine.md R180). -/
def Config.bufferWord (cfg : Config) (data : List Byte) (c : Nat) : Word :=
  cfg.romWord (RomIndex.ofBit (bufferBit data c))

/-- The words of all data bits of a buffer: its frame without `SR` (R180). -/
def Config.dataWords (cfg : Config) (data : List Byte) : List Word :=
  (List.range (8 * data.length)).map (cfg.bufferWord data)

/-- A frame is the words of the data bits, then `SR`. -/
theorem Config.frame_eq_dataWords (cfg : Config) (data : List Byte) :
    cfg.frame data = cfg.dataWords data ++ [cfg.romWord .sr] := rfl

@[simp] theorem Config.length_dataWords (cfg : Config) (data : List Byte) :
    (cfg.dataWords data).length = 8 * data.length := by
  simp [Config.dataWords]

@[simp] theorem Config.length_frame (cfg : Config) (data : List Byte) :
    (cfg.frame data).length = 8 * data.length + 1 := by
  simp [Config.frame_eq_dataWords]

/-- The waveform of some data bits is their pulses in order. -/
theorem Config.wave_map_bufferWord {cfg : Config} (h : cfg.legal = true) (data : List Byte) (cs : List Nat) :
    wave (cs.map (cfg.bufferWord data)) = cs.flatMap fun c => cfg.pulse (RomIndex.ofBit (bufferBit data c)) := by
  induction cs with
  | nil => rfl
  | cons c cs ih =>
    rw [List.map_cons, List.flatMap_cons, ← List.singleton_append, wave_append, ih, Config.bufferWord,
      Config.wave_romWord h]

/-- 40_symbol_rom.md R120: the waveform of a frame is a pulse for each data bit, in order, then the reset low. -/
theorem Config.wave_frame {cfg : Config} (h : cfg.legal = true) (data : List Byte) : wave (cfg.frame data) =
    ((List.range (8 * data.length)).flatMap fun c => cfg.pulse (RomIndex.ofBit (bufferBit data c))) ++
      List.replicate (cfg.ticks cfg.rst0Ns + cfg.ticks cfg.rst1Ns) false := by
  rw [Config.frame_eq_dataWords, wave_append, Config.wave_romWord h, Config.pulse_sr, Config.dataWords,
    Config.wave_map_bufferWord h]

/-- A frame with a data bit starts with a high tick (40_symbol_rom.md R119). -/
theorem Config.wave_frame_starts_high {cfg : Config} (h : cfg.legal = true) {data : List Byte}
    (hdata : 1 ≤ data.length) : (wave (cfg.frame data))[0]? = some true := by
  obtain ⟨m, hm⟩ := Nat.exists_eq_add_of_le' (show 1 ≤ 8 * data.length by omega)
  obtain ⟨k, hk⟩ := Config.exists_pulse_ofBit_eq h (bufferBit data 0)
  rw [Config.wave_frame h, hm, List.range_succ_eq_map, List.flatMap_cons, hk, List.replicate_succ]
  rfl

/-- The last data bit's high half ends in a high tick, and from there on the frame is low (40_symbol_rom.md R119). -/
theorem Config.wave_frame_ends_low {cfg : Config} (h : cfg.legal = true) {data : List Byte}
    (hdata : 1 ≤ data.length) : ∃ vs, wave (cfg.frame data) = (vs ++ [true]) ++
      List.replicate (cfg.ticks (cfg.secondNs (RomIndex.ofBit (bufferBit data (8 * data.length - 1)))) +
        (cfg.ticks cfg.rst0Ns + cfg.ticks cfg.rst1Ns)) false := by
  obtain ⟨m, hm⟩ := Nat.exists_eq_add_of_le' (show 1 ≤ 8 * data.length by omega)
  obtain ⟨k, hk⟩ := Config.exists_pulse_ofBit_eq h (bufferBit data m)
  rw [Config.wave_frame h, hm, Nat.add_sub_cancel, List.range_succ, List.flatMap_append, List.flatMap_singleton, hk,
    List.replicate_succ']
  refine ⟨((List.range m).flatMap fun c => cfg.pulse (RomIndex.ofBit (bufferBit data c))) ++
    List.replicate k true, ?_⟩
  simp only [List.append_assoc, List.replicate_add]

/-! ### The line around a transmission -/

/-- Where a stretch's waveform ends in a low part that follows a high tick, the line is high just before tick `n`, at
which that part begins, and low through it. -/
theorem lineLevel_low_end (before after : List Stretch) (f : Stretch) {vs : List Bool} {low n : Nat}
    (hf : wave f.words = (vs ++ [true]) ++ List.replicate low false)
    (hn : n = (line before).length + f.idle + (vs.length + 1)) :
    lineLevel (before ++ f :: after) ((n : Int) - 1) = true ∧
    ∀ t : Int, n ≤ t → t < n + low → lineLevel (before ++ f :: after) t = false := by
  have hhigh : (vs ++ [true]).length = vs.length + 1 := List.length_append
  have hlen : (wave f.words).length = vs.length + 1 + low := by
    rw [hf, List.length_append, hhigh, List.length_replicate]
  refine ⟨?_, fun t ht ht' => ?_⟩
  · have htick : (n : Int) - 1 = ((line before).length + f.idle + vs.length : Nat) := by omega
    rw [htick, lineLevel_words before after f (by omega), hf, List.getElem?_append_left (by omega),
      List.getElem?_concat_length, Option.getD_some]
  · obtain ⟨k, rfl⟩ := Int.le.dest ht
    have htick : (n : Int) + k = ((line before).length + f.idle + (vs.length + 1 + k) : Nat) := by omega
    rw [htick, lineLevel_words before after f (by omega), hf, List.getElem?_append_right (by omega), hhigh,
      Nat.add_sub_cancel_left, List.getElem?_replicate, if_pos (by omega), Option.getD_some]

/-- In the idle time between two stretches the line is idle. -/
theorem lineLevel_between (before rest : List Stretch) (f next : Stretch) {t : Int}
    (h : (line (before ++ [f])).length ≤ t) (h' : t < (line (before ++ [f])).length + next.idle) :
    lineLevel (before ++ f :: next :: rest) t = idleLevel := by
  have hidle := lineLevel_idle (before ++ [f]) rest next h h'
  rwa [List.append_assoc] at hidle

/-- Settles O36: the low part is the end of the frame's waveform, and then the line is idle. -/
theorem lineIsLowAfterTheLastBit : Obligations.LineIsLowAfterTheLastBit := by
  intro cfg data b before after idle n low h hdata hb hlow hn
  obtain ⟨vs, hvs⟩ := Config.wave_frame_ends_low h hdata
  have hlow' : low = cfg.ticks (cfg.secondNs (RomIndex.ofBit (bufferBit data (8 * data.length - 1)))) +
      (cfg.ticks cfg.rst0Ns + cfg.ticks cfg.rst1Ns) := by
    rw [hlow, ← hb, Nat.add_assoc]
    cases b <;> rfl
  rw [← hlow'] at hvs
  have hend : n = (line before).length + idle + (vs.length + 1) := by
    rw [hvs, List.length_append, List.length_append, List.length_replicate, List.length_singleton] at hn
    omega
  have hstretch : (Stretch.line ⟨idle, cfg.frame data⟩).length = idle + (wave (cfg.frame data)).length :=
    Stretch.length_line _
  have hline : (line (before ++ [⟨idle, cfg.frame data⟩])).length = n + low := by
    rw [line_append, List.length_append, line_cons, line_nil, List.append_nil, hstretch]
    omega
  obtain ⟨hhigh, hlast⟩ := lineLevel_low_end before after ⟨idle, cfg.frame data⟩ hvs hend
  refine ⟨by omega, hhigh, hlast, ?_, ?_⟩
  · rintro next rest t rfl ht ht'
    by_cases hin : t < n + low
    · exact hlast t ht hin
    · exact lineLevel_between before rest _ next (by omega) (by omega)
  · rintro rfl t ht
    by_cases hin : t < n + low
    · exact hlast t ht hin
    · exact lineLevel_of_length_le _ (by omega)

end Sys2Proof

namespace Sys2Proof.Machine

/-! ### The configuration never changes -/

/-- An `ENCODE` leaves the configuration, whether it fails or not (40_symbol_rom.md R115). -/
theorem execEncode_cfg {p : Operands} {s t : State} (h : execEncode p s = .next t) : t.cfg = s.cfg := by
  obtain ⟨hl, -⟩ := execEncode_cases h
  rcases encodeFails_or_ready p hl with hf | ⟨hr, hv⟩
  · cases (execEncode_of_encodeFails hl hf).symm.trans h
    rfl
  · obtain ⟨t', ht', -, -, -, -, hcfg, -⟩ := execEncode_summary p hr hv
    cases ht'.symm.trans h
    exact hcfg

/-- No operation changes the configuration (40_symbol_rom.md R115). -/
theorem exec_cfg {i : Instr} {s t : State} (h : exec i s = .next t) : t.cfg = s.cfg := by
  cases hc : i.isCommand with
  | true =>
    obtain ⟨-, ⟨p, -, rfl⟩ | ⟨p, -, rfl⟩ | ⟨p, -, ht⟩⟩ := exec_command_next hc h
    · rfl
    · rfl
    · exact execEncode_cfg ht
  | false =>
    obtain ⟨-, ⟨len, space, -, rfl⟩ | ⟨space, -, rfl⟩ | ⟨a, e, -, -, rfl⟩ | ⟨e, -, rfl⟩⟩ := exec_nonCommand_next hc h
    · exact bitenc_cfg len space s
    · exact rstenc_cfg space s
    · rfl
    · rfl

/-- No step changes the configuration: sampling and hardware reset leave it too. -/
theorem step_cfg {s t : State} (h : step s = .next t) : t.cfg = s.cfg := by
  rcases step_next_cases h with ⟨-, ht⟩ | ⟨op, rest, -, -, -, rfl⟩ | ⟨op, rest, i, -, -, -, -, -, ht⟩
  · exact exec_cfg ht
  · exact s.sample_cfg op rest
  · exact (exec_cfg ht).trans (s.sample_cfg op rest)

/-- Settles O46: the ROM is a function of the configuration, which stays. -/
theorem configurationNeverChanges : Obligations.ConfigurationNeverChanges :=
  ⟨fun _ _ _ h => ⟨exec_cfg h, fun e => congrArg (·.romWord e) (exec_cfg h)⟩,
    fun _ _ h => ⟨step_cfg h, fun e => congrArg (·.romWord e) (step_cfg h)⟩⟩

/-! ### `ROMREAD` -/

/-- `ROMREAD` at an entry's address puts its word on the data wire (40_symbol_rom.md R116). -/
theorem exec_romread_addr (e : RomIndex) {s : State} (h : s.cfg.legal = true) :
    exec (.romread e.addr) s = .next (s.readRom e) := by
  cases e <;> exact requireLegal_of_legal h _

/-- Settles O24: the addresses 0, 1 and 2 are those of the three entries, and address 3 has none. -/
theorem romreadReturnsSymbol : Obligations.RomreadReturnsSymbol := fun _ h =>
  ⟨exec_romread_addr .s0 h, exec_romread_addr .s1 h, exec_romread_addr .sr h, requireLegal_of_legal h _⟩

/-! ### A transmission cut into `ENCODE`s -/

/-- A transmission of `data` that started in `s₀` has emitted the first `k` words of its frame, and not yet `SR`. -/
structure Underway (s₀ : State) (data : List Byte) (k : Nat) (s : State) : Prop where
  /-- The configuration is that of the start. -/
  cfg : s.cfg = s₀.cfg
  /-- The host still presents the buffer. -/
  inMem : s.inMem = Memory.ofBytes data
  /-- Exactly the first `k` words of the frame were appended. -/
  outMem : s.outMem = s₀.outMem ++ (s₀.cfg.frame data).take k
  /-- At most the data bits were emitted. -/
  le : k ≤ 8 * data.length
  /-- The cursor counts them. -/
  cursor : s.cursor = k
  /-- The reset phase is only entered after all of them. -/
  phase : s.phase = .emitReset → k = 8 * data.length

/-- A transmission of `data` that started in `s₀` is over: the whole frame was appended, with `COMPLETE`, and the block
is `IDLE` (43_transmission_state_machine.md R180). -/
def Completed (s₀ : State) (data : List Byte) (t : State) : Prop :=
  t.outMem = s₀.outMem ++ s₀.cfg.frame data ∧ t.idle = true ∧ t.outputs.status = Status.completeOnly

/-- A transmission starts in `IDLE`, with no word of its frame emitted. -/
theorem Underway.of_idle {s : State} {data : List Byte} (hi : s.idle = true) (hin : s.inMem = Memory.ofBytes data) :
    Underway s data 0 s := by
  obtain ⟨hp, hc⟩ := s.idle_iff.mp hi
  exact ⟨rfl, hin, (List.append_nil _).symm, Nat.zero_le _, hc, fun hr => nomatch hp.symm.trans hr⟩

/-- The next words are, up to the end of the buffer, the frame's words from the cursor on. -/
theorem State.nextWords_eq_drop {s : State} {data : List Byte} (hin : s.inMem = Memory.ofBytes data)
    (hc : s.cursor ≤ 8 * data.length) (n : Nat) :
    s.nextWords (min n (8 * data.length - s.cursor)) = ((s.cfg.dataWords data).drop s.cursor).take n := by
  refine List.ext_getElem (by simp) fun j hj hj' => ?_
  rw [State.length_nextWords] at hj
  have hbit : s.inBit (s.cursor + j) = bufferBit data (s.cursor + j) := State.inBit_eq_bufferBit hin (by omega)
  simp [State.nextWords, Config.dataWords, State.bitWord, Config.bufferWord, hbit]

/-- In `EMIT_DATA` an `ENCODE` completes where its slots are more than the owed bits (R182). -/
theorem encodeDone_iff_of_emitData {p : Operands} {s : State} (hp : s.phase = .emitData) :
    encodeDone p s = true ↔ 8 * p.len - s.cursor < p.space := by
  simp only [encodeDone, hp, decide_eq_true_eq]

/-- In `EMIT_RESET` an `ENCODE` completes where it has a slot (R182). -/
theorem encodeDone_iff_of_emitReset {p : Operands} {s : State} (hp : s.phase = .emitReset) :
    encodeDone p s = true ↔ 1 ≤ p.space := by
  simp only [encodeDone, hp, decide_eq_true_eq]

@[simp] theorem encodeOperands_len (len space : Nat) : (encodeOperands len space).len = len := rfl
@[simp] theorem encodeOperands_space (len space : Nat) : (encodeOperands len space).space = space := rfl

/-- In a transmission an `ENCODE` completes exactly where its slots reach beyond the data bits (R178). -/
theorem Underway.encodeDone_iff {s₀ s : State} {data : List Byte} {k : Nat} (h : Underway s₀ data k s) (space : Nat) :
    encodeDone (encodeOperands data.length space) s = true ↔ 8 * data.length < k + space := by
  obtain ⟨-, -, -, hle, rfl, hphase⟩ := h
  cases hp : s.phase with
  | emitData =>
    rw [encodeDone_iff_of_emitData hp, encodeOperands_len, encodeOperands_space]
    omega
  | emitReset =>
    rw [encodeDone_iff_of_emitReset hp, encodeOperands_space, hphase hp]
    omega

/-- In a transmission an `ENCODE` emits the next words of the frame, as many as there are slots (R180). -/
theorem Underway.encodeWords_eq {s₀ s : State} {data : List Byte} {k : Nat} (h : Underway s₀ data k s) (space : Nat) :
    encodeWords (encodeOperands data.length space) s = ((s₀.cfg.frame data).drop k).take space := by
  have hdone := h.encodeDone_iff space
  obtain ⟨hcfg, hin, -, hle, rfl, hphase⟩ := h
  have hlen : (s₀.cfg.dataWords data).length = 8 * data.length := s₀.cfg.length_dataWords data
  have hreset : [s₀.cfg.romWord .sr].take (space - (8 * data.length - s.cursor)) =
      if encodeDone (encodeOperands data.length space) s then [s₀.cfg.romWord .sr] else [] := by
    by_cases hd : 8 * data.length < s.cursor + space
    · rw [if_pos (hdone.mpr hd), List.take_of_length_le (by rw [List.length_singleton]; omega)]
    · have hnone : space - (8 * data.length - s.cursor) = 0 := by omega
      rw [if_neg (hdone.not.mpr hd), hnone, List.take_zero]
  rw [Config.frame_eq_dataWords, List.drop_append_of_le_length (hlen ▸ hle), List.take_append, List.length_drop, hlen,
    hreset, encodeWords, hcfg]
  refine congrArg (· ++ _) ?_
  cases hp : s.phase with
  | emitData => exact hcfg ▸ State.nextWords_eq_drop hin hle space
  | emitReset => rw [List.drop_of_length_le (by rw [hlen, hphase hp]), List.take_nil]

/-- An `ENCODE` with no more slots than owed bits fills them all, reports `MEM_FULL` and leaves the transmission
underway (R177). -/
theorem Underway.encode {s₀ s : State} {data : List Byte} {k space : Nat} (h : Underway s₀ data k s)
    (hr : s₀.ready = true) (hspace : k + space ≤ 8 * data.length) :
    ∃ t, execEncode (encodeOperands data.length space) s = .next t ∧ t.outputs.status = Status.memFullOnly ∧
      Underway s₀ data (k + space) t := by
  obtain ⟨t, ht, hph, hcur, hmem, hout, hcfg, hin, -⟩ :=
    execEncode_summary (encodeOperands data.length space) ((State.ready_congr h.cfg).trans hr) rfl
  have hdone := (h.encodeDone_iff space).not.mpr (Nat.not_lt.mpr hspace)
  refine ⟨t, ht, by rw [hout, if_neg hdone], hcfg.trans h.cfg, hin.trans h.inMem, ?_, hspace, ?_, fun hreset => ?_⟩
  · rw [hmem, h.outMem, h.encodeWords_eq, List.append_assoc, ← List.take_add]
  · rw [hcur, encodeCursor, if_neg hdone]
    cases hp : s.phase with
    | emitData =>
      simp only [h.cursor, encodeOperands_len, encodeOperands_space]
      omega
    | emitReset =>
      have hall := h.phase hp
      simp only [h.cursor]
      omega
  · rw [hph, encodePhase, if_neg hdone] at hreset
    cases hp : s.phase with
    | emitData =>
      simp only [hp, h.cursor, encodeOperands_len, encodeOperands_space, ite_eq_right_iff, reduceCtorEq,
        imp_false] at hreset
      omega
    | emitReset =>
      have hall := h.phase hp
      omega

/-- An `ENCODE` with more slots than owed bits completes the transmission (R178). -/
theorem Underway.encode_completes {s₀ s : State} {data : List Byte} {k space : Nat} (h : Underway s₀ data k s)
    (hr : s₀.ready = true) (hspace : 8 * data.length < k + space) :
    ∃ t, execEncode (encodeOperands data.length space) s = .next t ∧ Completed s₀ data t := by
  obtain ⟨t, ht, hph, hcur, hmem, hout, -⟩ :=
    execEncode_summary (encodeOperands data.length space) ((State.ready_congr h.cfg).trans hr) rfl
  have hdone := (h.encodeDone_iff space).mpr hspace
  refine ⟨t, ht, ?_, t.idle_iff.mpr ⟨?_, ?_⟩, by rw [hout, if_pos hdone]⟩
  · rw [hmem, h.outMem, h.encodeWords_eq, List.append_assoc, ← List.take_add,
      List.take_of_length_le (by rw [Config.length_frame]; omega)]
  · rw [hph, encodePhase, if_pos hdone]
  · rw [hcur, encodeCursor, if_pos hdone]

/-- A `NOP` leaves the transmission where it is (R166). -/
theorem Underway.nop {s₀ s : State} {data : List Byte} {k : Nat} (h : Underway s₀ data k s) :
    Underway s₀ data k (s.returnNothing Status.none) :=
  ⟨h.cfg, h.inMem, h.outMem, h.le, h.cursor, h.phase⟩

/-- 43_transmission_state_machine.md R180: however the host cuts a transmission into `ENCODE`s and `NOP`s, only the
capacity offered in all counts. Up to the data bits the transmission is underway by that many words; beyond them it is
over. -/
theorem Underway.transmit {s₀ : State} {data : List Byte} (hr : s₀.ready = true) (moves : List (Option Nat))
    {k : Nat} {s : State} (h : Underway s₀ data k s) :
    ∃ t, transmit data.length moves s = .next t ∧
      (k + capacity moves ≤ 8 * data.length → Underway s₀ data (k + capacity moves) t) ∧
      (8 * data.length < k + capacity moves → Completed s₀ data t) := by
  induction moves generalizing k s with
  | nil => exact ⟨s, rfl, fun _ => h, fun hlt => absurd h.le (Nat.not_le.mpr hlt)⟩
  | cons move moves ih =>
    cases move with
    | none =>
      have hcap : capacity (none :: moves) = capacity moves := Nat.zero_add _
      obtain ⟨t, ht, hrest⟩ := ih h.nop
      have hnop : execNop ⟨false, 0, 0⟩ s = .next (s.returnNothing Status.none) :=
        requireLegal_of_legal ((s.ready_iff.mp ((State.ready_congr h.cfg).trans hr)).1) _
      refine ⟨t, ?_, hcap ▸ hrest⟩
      rw [Machine.transmit, hnop]
      exact ht
    | some space =>
      have hcap : capacity (some space :: moves) = space + capacity moves := rfl
      rw [hcap, ← Nat.add_assoc]
      by_cases hspace : k + space ≤ 8 * data.length
      · obtain ⟨u, hu, hfull, hunder⟩ := h.encode hr hspace
        obtain ⟨t, ht, hrest⟩ := ih hunder
        exact ⟨t, by simp [Machine.transmit, hu, hfull, ht], hrest⟩
      · obtain ⟨u, hu, hdone⟩ := h.encode_completes hr (Nat.lt_of_not_le hspace)
        exact ⟨u, by simp [Machine.transmit, hu, hdone.2.2], fun hle => absurd hle (by omega), fun _ => hdone⟩

/-- A transmission from `IDLE` with enough capacity in all appends its whole frame (R180). -/
theorem transmit_appends_frame {s : State} {data : List Byte} {moves : List (Option Nat)} (hr : s.ready = true)
    (hi : s.idle = true) (hin : s.inMem = Memory.ofBytes data) (hcap : 8 * data.length + 1 ≤ capacity moves) :
    ∃ t, transmit data.length moves s = .next t ∧ t.outMem = s.outMem ++ s.cfg.frame data := by
  obtain ⟨t, ht, -, hdone⟩ := (Underway.of_idle hi hin).transmit hr moves
  exact ⟨t, ht, (hdone (by omega)).1⟩

/-- Settles O35: the transmission appends its frame, whose waveform is the pulses of its bits and the reset low. -/
theorem transmissionWaveform : Obligations.TransmissionWaveform := by
  intro data moves s hr hi hin hcap
  obtain ⟨hl, -, -⟩ := s.ready_iff.mp hr
  obtain ⟨t, ht, hmem⟩ := transmit_appends_frame hr hi hin hcap
  refine ⟨t, wave (s.cfg.frame data), ht, ?_, ?_, ?_⟩
  · rw [State.waveform, hmem, wave_append, State.waveform]
  · simp only [Config.wave_frame hl, Config.pulse_ofBit]
  · simp only [Config.wave_frame hl, List.length_append, List.length_flatMap, List.length_replicate,
      Config.length_pulse_ofBit]

/-- Settles O54: the frame is one more stretch; before and after it the line is idle, and its first bit starts high. -/
theorem lineIsLowAroundATransmission : Obligations.LineIsLowAroundATransmission := by
  intro data moves before idle s hr hi hin hcap hplayed
  obtain ⟨hl, -, -⟩ := s.ready_iff.mp hr
  obtain ⟨t, ht, hmem⟩ := transmit_appends_frame hr hi hin hcap
  refine ⟨t, _, ht, rfl, State.playedAs_append hplayed hmem idle, fun k hk => lineLevel_of_neg _ hk,
    fun k hk hk' => lineLevel_idle before [] _ hk hk', fun k hk => lineLevel_of_length_le _ hk, fun hdata => ?_⟩
  have hfirst := Config.wave_frame_starts_high hl hdata
  obtain ⟨hlen, -⟩ := List.getElem?_eq_some_iff.mp hfirst
  have hlevel := lineLevel_words before [] ⟨idle, s.cfg.frame data⟩ hlen
  rwa [hfirst] at hlevel

end Sys2Proof.Machine
end

section
/-! PROOFS of the family 41_bit_encoder.md: what `BITENC` emits and what it leaves, and that a suspended `ENCODE`
resumes exactly where it stopped. -/

namespace Sys2Proof.Machine

/-! ### `BITENC` -/

/-- `BITENC` as an equation (41_bit_encoder.md R131). -/
theorem exec_bitenc (len space : Nat) {s : State} (hl : s.cfg.legal = true) :
    exec (.bitenc len space) s = .next (bitenc len space s) :=
  requireLegal_of_legal hl _

/-- `BITENC` answers nothing but that state. -/
theorem eq_bitenc_of_exec_bitenc {len space : Nat} {s t : State} (h : exec (.bitenc len space) s = .next t) :
    t = bitenc len space s :=
  (eq_of_requireLegal_next h).2

/-- The word of a bit is `S1` for a 1 and `S0` for a 0 (41_bit_encoder.md R132). -/
theorem State.bitWord_eq_ite (s : State) (c : Nat) :
    s.bitWord c = s.cfg.romWord (if s.inBit c then .s1 else .s0) := by
  rw [State.bitWord]
  cases s.inBit c <;> rfl

/-- The `k`-th of the next words is that of the bit `k` places after the cursor (R132). -/
theorem State.getElem?_nextWords (s : State) {n k : Nat} (hk : k < n) :
    (s.nextWords n)[k]? = some (s.bitWord (s.cursor + k)) := by
  rw [State.nextWords, List.getElem?_map, List.getElem?_range hk, Option.map_some]

/-- Settles O20: `BITENC` emits the words of the next bits, as many as there are slots and owed bits, and its flags
compare the cursor it leaves with the end of the data. -/
theorem bitencEmitsOwedBits : Obligations.BitencEmitsOwedBits := by
  intro len space s hl
  refine ⟨bitenc len space s, exec_bitenc len space hl, bitenc_cursor len space s,
    ⟨s.nextWords (bitencCount len space s), bitenc_outMem len space s, bitenc_out len space s, s.length_nextWords _,
      ?_, fun k hk => ?_⟩, ?_, ?_, ?_, fun hex => ?_⟩
  · rw [bitenc_nSyms, State.length_nextWords]
  · rw [State.length_nextWords] at hk
    rw [State.getElem?_nextWords s hk, State.bitWord_eq_ite]
  · rw [bitenc_consumed, bitenc_cursor, decide_eq_true_eq]
  · rw [bitenc_bitExhausted, bitenc_cursor, decide_eq_true_eq]
  · rw [bitenc_consumed, bitenc_bitExhausted, ← decide_not, decide_eq_decide, Nat.not_lt]
  · rw [bitenc_bitExhausted, decide_eq_true_eq, bitencCount] at hex
    omega

/-- Settles O21: field by field, and what `BITENC` appends stands behind the words that were on `OUT`. -/
theorem bitencLeavesTheRest : Obligations.BitencLeavesTheRest := by
  intro len space s t h
  obtain rfl := eq_bitenc_of_exec_bitenc h
  refine ⟨bitenc_phase len space s, bitenc_status len space s, bitenc_cfg len space s, bitenc_pending len space s,
    fun a => by rw [bitenc_inMem], ?_, bitenc_done len space s, bitenc_rstExhausted len space s,
    bitenc_freeTick len space s⟩
  rw [bitenc_outMem, List.take_left]

/-! ### A suspended `ENCODE` -/

/-- A bit of a byte the buffer holds does not depend on the free value (20_memory.md R51; assumption 10). -/
theorem State.inBit_eq_of_read_isSome {s t : State} {c : Nat} (hin : t.inMem = s.inMem)
    (hc : (s.inMem.read (c / 8)).isSome = true) : t.inBit c = s.inBit c := by
  obtain ⟨b, hb⟩ := Option.isSome_iff_exists.mp hc
  simp only [State.inBit, State.inByte, hin, hb, Option.getD_some]

/-- The next `m + n` words are the next `m`, then the `n` from a cursor `m` bits further. -/
theorem State.nextWords_add {s t : State} {m n : Nat} (hcfg : t.cfg = s.cfg) (hcur : t.cursor = s.cursor + m)
    (hbit : ∀ c, t.cursor ≤ c → c < t.cursor + n → t.inBit c = s.inBit c) :
    s.nextWords (m + n) = s.nextWords m ++ t.nextWords n := by
  rw [State.nextWords, List.range_add, List.map_append, List.map_map]
  refine congrArg (s.nextWords m ++ ·) (List.map_congr_left fun k hk => ?_)
  have hk : k < n := List.mem_range.mp hk
  rw [Function.comp_apply, ← Nat.add_assoc, ← hcur, State.bitWord, State.bitWord, hcfg,
    hbit _ (Nat.le_add_right _ _) (Nat.add_lt_add_left hk _)]

/-- `t` is where an `ENCODE` of `len` bytes with `a` slots, begun in `s`, stopped for want of a slot: all `a` slots
went to data bits (41_bit_encoder.md R135). -/
structure Suspended (len a : Nat) (s t : State) : Prop where
  /-- The ROM is the same. -/
  cfg : t.cfg = s.cfg
  /-- So are the bits of the input. -/
  bits : ∀ c, c < 8 * len → t.inBit c = s.inBit c
  /-- The cursor moved by one for each slot. -/
  cursor : t.cursor = s.cursor + a
  /-- The slots hold the words of the bits passed over. -/
  outMem : t.outMem = s.outMem ++ s.nextWords a
  /-- With a bit still owed the phase stays, with none it is `EMIT_RESET`, where no slot means none given (R182). -/
  phases : (s.phase = .emitData ∧ a < 8 * len - s.cursor ∧ t.phase = .emitData) ∨
    (s.phase = .emitData ∧ a = 8 * len - s.cursor ∧ t.phase = .emitReset) ∨
    (s.phase = .emitReset ∧ a = 0 ∧ t.phase = .emitReset)

/-- An `ENCODE` that reports `MEM_FULL` is suspended: it answered by one of the three rows of R182 that do. -/
theorem Suspended.of_encode {len a : Nat} {s t : State} (ht : execEncode (encodeOperands len a) s = .next t)
    (hfull : t.outputs.status.memFull = true) (hbytes : ∀ k, k < len → (s.inMem.read k).isSome = true) :
    Suspended len a s t := by
  have hbits (hin : t.inMem = s.inMem) (c : Nat) (hc : c < 8 * len) : t.inBit c = s.inBit c :=
    State.inBit_eq_of_read_isSome hin (hbytes _ (Nat.div_lt_of_lt_mul hc))
  obtain ⟨-, ⟨-, rfl⟩ | ⟨-, ⟨hp, hs, rfl⟩ | ⟨hp, hs, rfl⟩ | ⟨-, -, rfl⟩ | ⟨hp, hs, rfl⟩ | ⟨-, -, rfl⟩⟩⟩ :=
    execEncode_cases ht
  · exact absurd hfull Bool.false_ne_true
  · have hcount : bitencCount len a s.clearOut = a := Nat.min_eq_left (Nat.le_of_lt hs)
    exact ⟨by simp, hbits (by simp), by simp [hcount], by simp [hcount], .inl ⟨hp, hs, by simp [hp]⟩⟩
  · have hcount : min a (8 * len - s.cursor) = a := Nat.min_eq_left (Nat.le_of_eq hs)
    exact ⟨by simp, hbits (by simp), by simp [hcount], by simp [hcount, rstencWords], .inr (.inl ⟨hp, hs, by simp⟩)⟩
  · exact absurd hfull Bool.false_ne_true
  · obtain rfl : a = 0 := hs
    exact ⟨by simp, hbits (by simp), by simp, by simp [rstencWords], .inr (.inr ⟨hp, rfl, by simp [hp]⟩)⟩
  · exact absurd hfull Bool.false_ne_true

/-- An `ENCODE` with `b` slots after the suspended one completes exactly where one with `a + b` would have. -/
theorem Suspended.encodeDone_eq {len a : Nat} {s t : State} (h : Suspended len a s t) (b : Nat) :
    encodeDone (encodeOperands len b) t = encodeDone (encodeOperands len (a + b)) s := by
  rw [Bool.eq_iff_iff]
  rcases h.phases with ⟨hs, hlt, ht⟩ | ⟨hs, heq, ht⟩ | ⟨hs, hzero, ht⟩
  · simp only [encodeDone_iff_of_emitData hs, encodeDone_iff_of_emitData ht, encodeOperands_len, encodeOperands_space,
      h.cursor]
    omega
  · simp only [encodeDone_iff_of_emitData hs, encodeDone_iff_of_emitReset ht, encodeOperands_len, encodeOperands_space]
    omega
  · simp only [encodeDone_iff_of_emitReset hs, encodeDone_iff_of_emitReset ht, encodeOperands_space]
    omega

/-- The `ENCODE` after the suspended one leaves the phase that the undivided one leaves. -/
theorem Suspended.encodePhase_eq {len a : Nat} {s t : State} (h : Suspended len a s t) (b : Nat) :
    encodePhase (encodeOperands len b) t = encodePhase (encodeOperands len (a + b)) s := by
  rw [encodePhase, encodePhase, h.encodeDone_eq]
  refine if_congr Iff.rfl rfl ?_
  rcases h.phases with ⟨hs, hlt, ht⟩ | ⟨hs, heq, ht⟩ | ⟨hs, hzero, ht⟩
  · have howed : b < 8 * len - t.cursor ↔ a + b < 8 * len - s.cursor := by rw [h.cursor]; omega
    simp only [hs, ht]
    exact if_congr howed rfl rfl
  · have hnone : ¬ a + b < 8 * len - s.cursor := by omega
    simp only [hs, ht]
    exact (if_neg hnone).symm
  · simp only [hs, ht]

/-- The `ENCODE` after the suspended one leaves the cursor that the undivided one leaves. -/
theorem Suspended.encodeCursor_eq {len a : Nat} {s t : State} (h : Suspended len a s t) (b : Nat) :
    encodeCursor (encodeOperands len b) t = encodeCursor (encodeOperands len (a + b)) s := by
  rw [encodeCursor, encodeCursor, h.encodeDone_eq]
  refine if_congr Iff.rfl rfl ?_
  have hcur := h.cursor
  rcases h.phases with ⟨hs, hlt, ht⟩ | ⟨hs, heq, ht⟩ | ⟨hs, hzero, ht⟩
  all_goals
    simp only [hs, ht, encodeOperands_len, encodeOperands_space]
    omega

/-- The words of an `ENCODE` with `a + b` slots are those of the suspended one and then those of the next. -/
theorem Suspended.encodeWords_eq {len a : Nat} {s t : State} (h : Suspended len a s t) (b : Nat) :
    encodeWords (encodeOperands len (a + b)) s = s.nextWords a ++ encodeWords (encodeOperands len b) t := by
  rw [encodeWords, encodeWords, h.encodeDone_eq, h.cfg, ← List.append_assoc]
  refine congrArg (· ++ _) ?_
  rcases h.phases with ⟨hs, hlt, ht⟩ | ⟨hs, heq, ht⟩ | ⟨hs, hzero, ht⟩
  · have hcount : min (a + b) (8 * len - s.cursor) = a + min b (8 * len - t.cursor) := by rw [h.cursor]; omega
    simp only [hs, ht, encodeOperands_len, encodeOperands_space, hcount]
    exact State.nextWords_add h.cfg h.cursor fun c _ hc => h.bits c (by omega)
  · have hcount : min (a + b) (8 * len - s.cursor) = a := by omega
    simp only [hs, ht, encodeOperands_len, encodeOperands_space, hcount, List.append_nil]
  · simp only [hs, ht, hzero, State.nextWords_zero, List.append_nil]

/-- Settles O13: the `ENCODE` that reports `MEM_FULL` is suspended, and the one after it ends where the undivided one
does, in every part of its answer that `execEncode_summary` lists. -/
theorem suspendedEncodeResumesExactly : Obligations.SuspendedEncodeResumesExactly := by
  intro len a b s hr hbytes
  obtain ⟨t, ht, -⟩ := execEncode_summary (encodeOperands len a) hr rfl
  obtain ⟨u, hu, huph, hucur, humem, huout, -⟩ := execEncode_summary (encodeOperands len (a + b)) hr rfl
  refine ⟨t, u, ht, hu, fun hfull => ?_⟩
  have h := Suspended.of_encode ht hfull hbytes
  obtain ⟨v, hv, hvph, hvcur, hvmem, hvout, -⟩ :=
    execEncode_summary (encodeOperands len b) ((State.ready_congr h.cfg).trans hr) rfl
  refine ⟨v, hv, ?_, ?_, ?_, ?_⟩
  · rw [hvph, huph, h.encodePhase_eq]
  · rw [hvcur, hucur, h.encodeCursor_eq]
  · rw [hvmem, humem, h.encodeWords_eq, h.outMem, List.append_assoc]
  · rw [hvout, huout, h.encodeDone_eq]

end Sys2Proof.Machine
end

section
/-! PROOFS of the family 42_reset_latch_encoder.md: what `RSTENC` emits and what it leaves. -/

namespace Sys2Proof.Machine

/-- `RSTENC` as an equation (42_reset_latch_encoder.md R151). -/
theorem exec_rstenc (space : Nat) {s : State} (hl : s.cfg.legal = true) :
    exec (.rstenc space) s = .next (rstenc space s) :=
  requireLegal_of_legal hl _

/-- With a slot the words are `SR` alone. -/
theorem rstencWords_of_slot {space : Nat} (h : 1 ≤ space) (s : State) :
    rstencWords space s = [s.cfg.romWord .sr] :=
  if_pos h

/-- Without a slot `RSTENC` drives its two flags and nothing else. -/
theorem rstenc_zero (s : State) :
    rstenc 0 s = { s with wires := { s.wires with done := false, rstExhausted := true } } :=
  rfl

/-- Settles O22: with a slot `RSTENC` appends the one word `SR`, without one it only drives its flags, and the rest
stays in either case, field by field. -/
theorem rstencEmitsResetSymbolOrNothing : Obligations.RstencEmitsResetSymbolOrNothing := by
  intro space s hl
  refine ⟨rstenc space s, exec_rstenc space hl, fun hslot => ?_, ?_, rstenc_phase space s, rstenc_cursor space s,
    rstenc_cfg space s, rstenc_pending space s, rstenc_freeTick space s, rstenc_status space s,
    rstenc_consumed space s, rstenc_bitExhausted space s, fun a => by rw [rstenc_inMem]⟩
  · have hwords := rstencWords_of_slot hslot s
    refine ⟨?_, ?_, ?_, ?_, ?_⟩
    · rw [rstenc_outMem, hwords]
    · rw [rstenc_out, hwords]
    · rw [rstenc_nSyms, hwords, List.length_singleton]
    · rw [rstenc_done, decide_eq_true hslot]
    · rw [rstenc_rstExhausted, decide_eq_false (Nat.one_le_iff_ne_zero.mp hslot)]
  · rintro rfl
    rw [rstenc_zero]
    exact ⟨rfl, rfl, rfl, rfl⟩

end Sys2Proof.Machine
end

section
/-! PROOFS of the family 43_transmission_state_machine.md: `NOP`, `RESET` and the step, `ENCODE` as its sub-encoders,
the transition table, and whole transmissions. -/

namespace Sys2Proof.Machine

/-! ### `NOP`, `RESET` and the step -/

/-- Settles O3: `NOP` answers with nothing on the ports and is otherwise the state it found. -/
theorem nopWritesNoState : Obligations.NopWritesNoState := fun p _ hl => exec_nop p hl

/-- Settles O4: `RESET` does what hardware reset does, without a look at the ports or the straps. -/
theorem resetCommandReturnsToIdle : Obligations.ResetCommandReturnsToIdle := fun p _ hl => exec_reset p hl

/-- Settles O40: a well-formed decoded command runs on the sampled state. -/
theorem stepRunsDecodedInstruction : Obligations.StepRunsDecodedInstruction := by
  intro s op rest i hp hr hd hw
  rw [step_of_decode hp hr hd, if_pos hw, State.sample_eq]

/-- A step with no operation of the host's runs the instruction that stands for none (R166). -/
theorem step_of_pending_nil {s : State} (hp : s.pending = []) : step s = exec noCommand s := by
  rw [step, hp]

/-- Settles O41: that instruction is a `NOP`. -/
theorem stepWithoutCommandIsNop : Obligations.StepWithoutCommandIsNop := fun s hl hp =>
  (step_of_pending_nil hp).trans (nopWritesNoState _ s hl)

/-! ### The flags of the two sub-encoders -/

/-- After `BITENC` exactly one of its flags is true (41_bit_encoder.md R134). -/
theorem bitenc_consumed_eq_not (len space : Nat) (s : State) :
    (bitenc len space s).wires.consumed = !(bitenc len space s).wires.bitExhausted := by
  rw [bitenc_consumed, bitenc_bitExhausted, ← decide_not, decide_eq_decide, Nat.not_lt]

/-- After `RSTENC` exactly one of its flags is true (42_reset_latch_encoder.md R151). -/
theorem rstenc_rstExhausted_eq_not (space : Nat) (s : State) :
    (rstenc space s).wires.rstExhausted = !(rstenc space s).wires.done := by
  rw [rstenc_done, rstenc_rstExhausted, ← decide_not, decide_eq_decide, Nat.not_le, Nat.lt_one_iff]

/-- `exhausted` of `BITENC` ends the operation, whatever `consumed` says (R171). -/
theorem afterBitenc_of_exhausted (space : Nat) {s : State} (he : s.wires.bitExhausted = true) :
    afterBitenc space s = .next (s.respond Status.memFullOnly) :=
  if_pos he

/-- `consumed` alone leads on to the reset phase (R170). -/
theorem afterBitenc_of_consumed (space : Nat) {s : State} (he : s.wires.bitExhausted = false)
    (hc : s.wires.consumed = true) : afterBitenc space s = resetPhase space { s with phase := .emitReset } := by
  simp only [afterBitenc, he, hc, Bool.false_eq_true, if_false, if_true]

/-- Neither flag of `BITENC` is refused (R175). -/
theorem afterBitenc_of_neither (space : Nat) {s : State} (he : s.wires.bitExhausted = false)
    (hc : s.wires.consumed = false) : afterBitenc space s = .refused .neitherFlag := by
  simp only [afterBitenc, he, hc, Bool.false_eq_true, if_false]

/-- `done` of `RSTENC` ends the transmission (R172). -/
theorem resetPhase_of_done {space : Nat} {s : State} (hd : (rstenc space s).wires.done = true) :
    resetPhase space s = .next ((rstenc space s).toIdle.respond Status.completeOnly) :=
  if_pos hd

/-- Where `RSTENC` is not done its space is exhausted, and the operation ends there (R173). -/
theorem resetPhase_of_not_done {space : Nat} {s : State} (hd : (rstenc space s).wires.done = false) :
    (rstenc space s).wires.rstExhausted = true ∧
      resetPhase space s = .next ((rstenc space s).respond Status.memFullOnly) := by
  have he : (rstenc space s).wires.rstExhausted = true := by rw [rstenc_rstExhausted_eq_not, hd, Bool.not_false]
  refine ⟨he, ?_⟩
  simp only [resetPhase, hd, he, Bool.false_eq_true, if_false, if_true]

/-- Why a row that is not a command is refused: the reserved ROM address, or the configuration is illegal. -/
theorem exec_nonCommand_refused {i : Instr} (hc : i.isCommand = false) {s : State} {r : Refusal}
    (h : exec i s = .refused r) : r = .reservedRomAddress ∨ r = .illegalConfiguration := by
  cases hl : s.cfg.legal with
  | false =>
    have hi : ∀ p, i ≠ .reservedCmd3 p := fun p hp => nomatch (hp ▸ hc : (Instr.reservedCmd3 p).isCommand = false)
    injection (exec_of_illegal hl hi).symm.trans h with h
    exact .inr h.symm
  | true =>
    cases i with
    | nop _ => cases hc
    | encode _ => cases hc
    | reset _ => cases hc
    | reservedCmd3 _ => cases hc
    | bitenc len space => cases (exec_bitenc len space hl).symm.trans h
    | rstenc space => cases (exec_rstenc space hl).symm.trans h
    | romread a =>
      have h : execRomread a s = .refused r := h
      rw [execRomread, requireLegal_of_legal hl] at h
      cases he : RomIndex.ofAddr a with
      | some e => rw [he] at h; cases h
      | none => rw [he] at h; cases h; exact .inl rfl
    | sym0 => cases (exec_romInstr .s0 hl).symm.trans h
    | sym1 => cases (exec_romInstr .s1 hl).symm.trans h
    | symr => cases (exec_romInstr .sr hl).symm.trans h

/-- No operation ends on neither flag (R175): every refusal has another reason. -/
theorem exec_ne_neitherFlag (i : Instr) (s : State) : exec i s ≠ .refused .neitherFlag := by
  intro h
  cases hc : i.isCommand with
  | true => rcases exec_command_refused hc h with ⟨-, -, hr⟩ | ⟨-, hr⟩ <;> cases hr
  | false => rcases exec_nonCommand_refused hc h with hr | hr <;> cases hr

/-- Settles O23: the flags are complementary, so neither never happens, and `afterBitenc` tests `exhausted` first. -/
theorem subEncodersReportExactlyOneFlag : Obligations.SubEncodersReportExactlyOneFlag :=
  ⟨fun len space s => ⟨bitenc_consumed_eq_not len space s, by rw [rstenc_rstExhausted_eq_not, Bool.not_not]⟩,
    exec_ne_neitherFlag, fun space s hp he => ⟨s.respond Status.memFullOnly, afterBitenc_of_exhausted space he, hp, rfl⟩,
    fun space _ => afterBitenc_of_neither space⟩

/-! ### `ENCODE` as its sub-encoders -/

/-- In `EMIT_DATA` a non-failing `ENCODE` is the data phase, with nothing on `out` (R167). -/
theorem exec_encode_of_emitData {p : Operands} {s : State} (hr : s.ready = true) (hv : p.dataValid = true)
    (hp : s.phase = .emitData) : exec (.encode p) s = dataPhase p.len p.space s.clearOut := by
  obtain ⟨hl, hb, hr⟩ := s.ready_iff.mp hr
  simp only [exec, execEncode, requireLegal_of_legal hl, State.encodeFails_of_ready hb hr hv, hp, Bool.false_eq_true,
    if_false]

/-- In `EMIT_RESET` it is the reset phase, which has no `LEN` (R167). -/
theorem exec_encode_of_emitReset {p : Operands} {s : State} (hr : s.ready = true) (hv : p.dataValid = true)
    (hp : s.phase = .emitReset) : exec (.encode p) s = resetPhase p.space s.clearOut := by
  obtain ⟨hl, hb, hr⟩ := s.ready_iff.mp hr
  simp only [exec, execEncode, requireLegal_of_legal hl, State.encodeFails_of_ready hb hr hv, hp, Bool.false_eq_true,
    if_false]

/-- Settles O14: the data phase is `afterBitenc` on what `BITENC` answers, and the reset phase is `RSTENC`. -/
theorem encodeIsBitencThenRstenc : Obligations.EncodeIsBitencThenRstenc := by
  intro p s hr hv hp
  have hl : s.cfg.legal = true := (s.ready_iff.mp hr).1
  have hencode : exec (.encode p) s = dataPhase p.len p.space s.clearOut := exec_encode_of_emitData hr hv hp
  refine ⟨bitenc p.len p.space s.clearOut, exec_bitenc p.len p.space (s := s.clearOut) hl, fun he => ?_, fun he => ?_⟩
  · exact hencode.trans (afterBitenc_of_exhausted _ he)
  · have hc : (bitenc p.len p.space s.clearOut).wires.consumed = true := by
      rw [bitenc_consumed_eq_not, he, Bool.not_false]
    have hreset := hencode.trans (afterBitenc_of_consumed _ he hc)
    have hlb : (afterData p s).cfg.legal = true := (afterData_cfg p s).symm ▸ hl
    exact ⟨hc, _, exec_rstenc _ hlb, fun hd => hreset.trans (resetPhase_of_done hd),
      fun hd => hreset.trans (resetPhase_of_not_done hd).2⟩

/-- Settles O55: with nothing on `out`, the reset phase is `RSTENC` with the whole capacity. -/
theorem resetPhaseIsRstenc : Obligations.ResetPhaseIsRstenc := by
  intro p s hr hv hp
  have hencode := exec_encode_of_emitReset hr hv hp
  refine ⟨rstenc p.space s.clearOut, exec_rstenc p.space (s := s.clearOut) (s.ready_iff.mp hr).1, fun hd => ?_,
    fun hd => ?_⟩
  · exact ⟨by rw [rstenc_rstExhausted_eq_not, hd, Bool.not_true], hencode.trans (resetPhase_of_done hd)⟩
  · obtain ⟨he, hfull⟩ := resetPhase_of_not_done hd
    exact ⟨he, (rstenc_phase _ _).trans hp, rstenc_cursor _ _, hencode.trans hfull⟩

/-- `RSTENC` does the same beside any buffer (42_reset_latch_encoder.md R151). -/
theorem rstenc_withInput (space : Nat) (s : State) (m : Memory) :
    rstenc space { s with inMem := m } = { rstenc space s with inMem := m } := by
  unfold rstenc
  split <;> rfl

/-- So does the reset phase, which reads the flags of `RSTENC` and nothing else (R172). -/
theorem resetPhase_withInput {space : Nat} {s t : State} (m : Memory) (h : resetPhase space s = .next t) :
    resetPhase space { s with inMem := m } = .next { t with inMem := m } := by
  rw [resetPhase_eq] at h
  rw [resetPhase_eq, rstenc_withInput]
  split at h
  · rw [if_pos ‹_›]
    cases h
    rfl
  · rw [if_neg ‹_›]
    cases h
    rfl

/-- Settles O15: the reset phase has no `LEN`, and `RSTENC` neither reads nor samples `IN`. -/
theorem resetPhaseIgnoresDataAndLength : Obligations.ResetPhaseIgnoresDataAndLength := by
  intro p s len m hr hv hp
  have hencode := exec_encode_of_emitReset hr hv hp
  have hencode' : exec (.encode { p with len := len }) { s with inMem := m } =
      resetPhase p.space { s.clearOut with inMem := m } :=
    exec_encode_of_emitReset (p := { p with len := len }) (s := { s with inMem := m }) hr hv hp
  obtain hs | hs : p.space = 0 ∨ 1 ≤ p.space := Nat.eq_zero_or_pos _
  · have ht : resetPhase p.space s.clearOut = .next ((rstenc 0 s.clearOut).respond Status.memFullOnly) := by
      rw [hs]
      rfl
    exact ⟨_, hencode.trans ht, rfl, fun _ => ⟨rfl, hp, rfl⟩, hencode'.trans (resetPhase_withInput m ht)⟩
  · have ht := (resetPhase_eq p.space s.clearOut).trans (if_pos hs)
    exact ⟨_, hencode.trans ht, rstenc_freeTick _ _, fun h0 => absurd h0 (Nat.one_le_iff_ne_zero.mp hs),
      hencode'.trans (resetPhase_withInput m ht)⟩

/-! ### The transition table -/

/-- R182, `s < r`: the slots run out with a bit owed. -/
theorem encode_row_bits_owed {p : Operands} {s : State} (hp : s.phase = .emitData)
    (hs : p.space < 8 * p.len - s.cursor) :
    encodeDone p s = false ∧ encodeWords p s = s.nextWords p.space ∧ encodePhase p s = .emitData ∧
      encodeCursor p s = s.cursor + p.space := by
  have hd : encodeDone p s = false := by
    rw [Bool.eq_false_iff, ne_eq, encodeDone_iff_of_emitData hp]
    omega
  have hmin : min p.space (8 * p.len - s.cursor) = p.space := Nat.min_eq_left (Nat.le_of_lt hs)
  simp [encodeWords, encodePhase, encodeCursor, hd, hp, hs, hmin]

/-- R182, `s = r`: the slots run out exactly with the data. -/
theorem encode_row_data_done {p : Operands} {s : State} (hp : s.phase = .emitData)
    (hs : p.space = 8 * p.len - s.cursor) :
    encodeDone p s = false ∧ encodeWords p s = s.nextWords p.space ∧ encodePhase p s = .emitReset ∧
      encodeCursor p s = s.cursor + p.space := by
  have hd : encodeDone p s = false := by
    rw [Bool.eq_false_iff, ne_eq, encodeDone_iff_of_emitData hp]
    omega
  simp [encodeWords, encodePhase, encodeCursor, hd, hp, ← hs]

/-- R182, `s > r`: a slot is left for the reset symbol. -/
theorem encode_row_slot_left {p : Operands} {s : State} (hp : s.phase = .emitData)
    (hs : 8 * p.len - s.cursor < p.space) :
    encodeDone p s = true ∧ encodeWords p s = s.nextWords (8 * p.len - s.cursor) ++ [s.cfg.romWord .sr] ∧
      encodePhase p s = .emitData ∧ encodeCursor p s = 0 := by
  have hd : encodeDone p s = true := (encodeDone_iff_of_emitData hp).mpr hs
  have hmin : min p.space (8 * p.len - s.cursor) = 8 * p.len - s.cursor := Nat.min_eq_right (Nat.le_of_lt hs)
  simp [encodeWords, encodePhase, encodeCursor, hd, hp, hmin]

/-- R182, `EMIT_RESET` without a slot. -/
theorem encode_row_reset_waits {p : Operands} {s : State} (hp : s.phase = .emitReset) (hs : p.space = 0) :
    encodeDone p s = false ∧ encodeWords p s = [] ∧ encodePhase p s = .emitReset ∧ encodeCursor p s = s.cursor := by
  have hd : encodeDone p s = false := by
    rw [Bool.eq_false_iff, ne_eq, encodeDone_iff_of_emitReset hp]
    omega
  simp [encodeWords, encodePhase, encodeCursor, hd, hp]

/-- R182, `EMIT_RESET` with a slot. -/
theorem encode_row_reset_done {p : Operands} {s : State} (hp : s.phase = .emitReset) (hs : 1 ≤ p.space) :
    encodeDone p s = true ∧ encodeWords p s = [s.cfg.romWord .sr] ∧ encodePhase p s = .emitData ∧
      encodeCursor p s = 0 := by
  have hd : encodeDone p s = true := (encodeDone_iff_of_emitReset hp).mpr hs
  simp [encodeWords, encodePhase, encodeCursor, hd, hp]

/-- Settles O7: the rows of R182, read off `execEncode_summary`; the failure path, `RESET` and `NOP` as equations. -/
theorem encodeTransitionTable : Obligations.EncodeTransitionTable := by
  intro p s hl
  refine ⟨fun hr hv hp hc => ?_, fun hr hv hp => ?_, fun hf => ?_, ⟨_, exec_reset p hl, rfl, rfl, rfl, rfl⟩,
    ⟨_, exec_nop p hl, rfl, rfl, rfl, rfl⟩⟩
  · obtain ⟨t, ht, hph, hcur, hmem, hout, -⟩ := execEncode_summary p hr hv
    refine ⟨t, ht, ?_⟩
    rw [hph, hcur, hmem, hout]
    refine ⟨rfl, rfl, fun hs => ?_, fun hs => ?_, fun hs => ?_⟩
    · obtain ⟨hd, hw, hph, hcur⟩ := encode_row_bits_owed hp hs
      exact ⟨hw, hph, hcur, by rw [hd]; rfl⟩
    · obtain ⟨hd, hw, hph, hcur⟩ := encode_row_data_done hp hs
      exact ⟨hs ▸ hw, hph, by omega, by rw [hd]; rfl⟩
    · obtain ⟨hd, hw, hph, hcur⟩ := encode_row_slot_left hp hs
      exact ⟨hw, hph, hcur, by rw [hd]; rfl⟩
  · obtain ⟨t, ht, hph, hcur, hmem, hout, -⟩ := execEncode_summary p hr hv
    refine ⟨t, ht, ?_⟩
    rw [hph, hcur, hmem, hout]
    refine ⟨rfl, rfl, fun hs => ?_, fun hs => ?_⟩
    · obtain ⟨hd, hw, hph, hcur⟩ := encode_row_reset_waits hp hs
      exact ⟨hw, hph, hcur, by rw [hd]; rfl⟩
    · obtain ⟨hd, hw, hph, hcur⟩ := encode_row_reset_done hp hs
      exact ⟨hw, hph, hcur, by rw [hd]; rfl⟩
  · rcases encodeFails_or_ready p hl with hfail | ⟨hr, hv⟩
    · exact ⟨_, execEncode_of_encodeFails hl hfail, rfl, rfl, rfl, rfl⟩
    · simp [hr, hv] at hf

/-! ### How many words, and which flag -/

/-- An `ENCODE` that does not complete the transmission has filled its buffer (R177). -/
theorem length_encodeWords_of_not_done {p : Operands} {s : State} (hd : encodeDone p s = false) :
    (encodeWords p s).length = p.space := by
  have hd' : ¬ encodeDone p s = true := Bool.not_eq_true _ ▸ hd
  cases hp : s.phase with
  | emitData =>
    have hs := (encodeDone_iff_of_emitData hp).not.mp hd'
    simp only [encodeWords, hp, hd, Bool.false_eq_true, if_false, List.append_nil, State.length_nextWords]
    omega
  | emitReset =>
    have hs := (encodeDone_iff_of_emitReset hp).not.mp hd'
    simp only [encodeWords, hp, hd, Bool.false_eq_true, if_false, List.append_nil, List.length_nil]
    omega

/-- A completing `ENCODE` has the reset symbol as its last word (R178). -/
theorem getLast?_encodeWords_of_done {p : Operands} {s : State} (hd : encodeDone p s = true) :
    (encodeWords p s).getLast? = some (s.cfg.romWord .sr) := by
  rw [encodeWords, if_pos hd, List.getLast?_concat]

/-- An `ENCODE` emits the reset symbol exactly where it completes the transmission (R178). -/
theorem sr_mem_encodeWords_iff {p : Operands} {s : State} (hl : s.cfg.legal = true) :
    s.cfg.romWord .sr ∈ encodeWords p s ↔ encodeDone p s = true := by
  refine ⟨fun hw => ?_, fun hd => List.mem_of_getLast? (getLast?_encodeWords_of_done hd)⟩
  rcases List.mem_append.mp hw with hw | hw
  · cases hp : s.phase with
    | emitData =>
      rw [hp] at hw
      exact absurd hw (State.sr_notMem_nextWords hl _)
    | emitReset =>
      rw [hp] at hw
      exact absurd hw List.not_mem_nil
  · by_contra hd
    rw [if_neg hd] at hw
    exact absurd hw List.not_mem_nil

/-- With no slot an `ENCODE` does not complete the transmission (R177). -/
theorem encodeDone_of_space_zero {p : Operands} (s : State) (h0 : p.space = 0) : encodeDone p s = false := by
  rw [Bool.eq_false_iff, ne_eq]
  cases hp : s.phase with
  | emitData => rw [encodeDone_iff_of_emitData hp]; omega
  | emitReset => rw [encodeDone_iff_of_emitReset hp]; omega

/-- With a slot an `ENCODE` emits at least one word (R179): it fills its buffer, or its last word is `SR`. -/
theorem one_le_length_encodeWords {p : Operands} (s : State) (hs : 1 ≤ p.space) : 1 ≤ (encodeWords p s).length := by
  cases hd : encodeDone p s with
  | false => rwa [length_encodeWords_of_not_done hd]
  | true => exact List.length_pos_of_ne_nil fun hnil => by simpa [hnil] using getLast?_encodeWords_of_done hd

/-- With no slot a non-failing `ENCODE` reports `MEM_FULL` and emits nothing; the cursor stays (R177). -/
theorem execEncode_of_space_zero {p : Operands} {s : State} (hr : s.ready = true) (hv : p.dataValid = true)
    (h0 : p.space = 0) :
    ∃ t, execEncode p s = .next t ∧ t.outputs = ⟨[], 0, Status.memFullOnly⟩ ∧ t.outMem = s.outMem ∧
      t.cursor = s.cursor ∧ t.phase = encodePhase p s ∧ t.cfg = s.cfg := by
  obtain ⟨t, ht, hph, hcur, hmem, hout, hcfg, -⟩ := execEncode_summary p hr hv
  have hd := encodeDone_of_space_zero s h0
  have hw : encodeWords p s = [] := List.eq_nil_of_length_eq_zero ((length_encodeWords_of_not_done hd).trans h0)
  rw [hw, List.append_nil] at hmem
  rw [hw, hd] at hout
  refine ⟨t, ht, hout, hmem, hcur.trans ?_, hph, hcfg⟩
  rw [encodeCursor, hd, h0, Nat.zero_min]
  cases s.phase <;> rfl

/-- Settles O8: at most `SPACE` words, all of it where the transmission is not complete, and the rows with no slot. -/
theorem encodeStaysWithinSpace : Obligations.EncodeStaysWithinSpace := by
  intro p s hl
  rcases encodeFails_or_ready p hl with hf | ⟨hr, hv⟩
  · exact ⟨_, execEncode_of_encodeFails hl hf, Nat.zero_le _, fun h => absurd h Bool.false_ne_true,
      fun hr hv => absurd ⟨hr, hv⟩ (not_ready_of_encodeFails hf)⟩
  · obtain ⟨t, ht, -, -, -, hout, -⟩ := execEncode_summary p hr hv
    refine ⟨t, ht, ?_, fun hfull => ?_, fun _ _ h0 => ?_⟩
    · rw [hout]
      exact length_encodeWords_le p s
    · rw [hout] at hfull ⊢
      cases hd : encodeDone p s with
      | false => exact length_encodeWords_of_not_done hd
      | true => rw [hd] at hfull; exact absurd hfull Bool.false_ne_true
    · obtain ⟨t', ht', hout, hmem, hcur, hph, -⟩ := execEncode_of_space_zero hr hv h0
      cases ht'.symm.trans ht
      refine ⟨by rw [hout], by rw [hout]; rfl, hmem, hcur, fun hp => ?_, fun hp hc => ?_, fun hp hc => ?_⟩
      · obtain ⟨-, -, hrow, -⟩ := encode_row_reset_waits hp h0
        exact hph.trans hrow
      · obtain ⟨-, -, hrow, -⟩ := encode_row_bits_owed hp (by omega : p.space < 8 * p.len - s.cursor)
        exact hph.trans hrow
      · obtain ⟨-, -, hrow, -⟩ := encode_row_data_done hp (by omega : p.space = 8 * p.len - s.cursor)
        exact hph.trans hrow

/-- Settles O9: the status is decided by whether the transmission completes, and that is whether `SR` was emitted. -/
theorem encodeReportsExactlyOneFlag : Obligations.EncodeReportsExactlyOneFlag := by
  intro p s hl
  rcases encodeFails_or_ready p hl with hf | ⟨hr, hv⟩
  · exact ⟨_, execEncode_of_encodeFails hl hf, .inl rfl, fun hr hv => absurd ⟨hr, hv⟩ (not_ready_of_encodeFails hf)⟩
  · obtain ⟨t, ht, -, -, -, hout, -⟩ := execEncode_summary p hr hv
    refine ⟨t, ht, ?_⟩
    rw [hout, sr_mem_encodeWords_iff hl]
    cases hd : encodeDone p s with
    | false => exact ⟨.inr rfl, fun _ _ => ⟨Iff.rfl, fun h => absurd h Bool.false_ne_true⟩⟩
    | true => exact ⟨.inl rfl, fun _ _ => ⟨Iff.rfl, fun _ => getLast?_encodeWords_of_done hd⟩⟩

/-! ### A transmission makes progress -/

/-- `TRANSMIT` goes on after an `ENCODE` that reports `MEM_FULL` (30_encoding.md R91). -/
theorem transmit_of_memFull {len space : Nat} {moves : List (Option Nat)} {s t : State}
    (ht : execEncode (encodeOperands len space) s = .next t) (hfull : t.outputs.status = Status.memFullOnly) :
    transmit len (some space :: moves) s = transmit len moves t := by
  simp [transmit, ht, hfull]

/-- `TRANSMIT` ends with an `ENCODE` that reports `COMPLETE` (30_encoding.md R91). -/
theorem transmit_of_complete {len space : Nat} {moves : List (Option Nat)} {s t : State}
    (ht : execEncode (encodeOperands len space) s = .next t) (hdone : t.outputs.status = Status.completeOnly) :
    transmit len (some space :: moves) s = .next t := by
  simp [transmit, ht, hdone]

/-- A completing `ENCODE` leaves `IDLE` with `COMPLETE` (R172). -/
theorem execEncode_of_done {p : Operands} {s : State} (hr : s.ready = true) (hv : p.dataValid = true)
    (hd : encodeDone p s = true) :
    ∃ t, execEncode p s = .next t ∧ t.idle = true ∧ t.outputs.status = Status.completeOnly := by
  obtain ⟨t, ht, hph, hcur, -, hout, -⟩ := execEncode_summary p hr hv
  rw [encodePhase, if_pos hd] at hph
  rw [encodeCursor, if_pos hd] at hcur
  exact ⟨t, ht, t.idle_iff.mpr ⟨hph, hcur⟩, by rw [hout, if_pos hd]⟩

/-- An `ENCODE` that has a slot and does not complete the transmission moves the cursor (R179). -/
theorem lt_encodeCursor_of_not_done {p : Operands} {s : State} (hs : 1 ≤ p.space) (hd : encodeDone p s = false) :
    s.cursor < encodeCursor p s := by
  have hd' : ¬ encodeDone p s = true := Bool.not_eq_true _ ▸ hd
  cases hp : s.phase with
  | emitData =>
    have howed := (encodeDone_iff_of_emitData hp).not.mp hd'
    simp only [encodeCursor, if_neg hd', hp]
    omega
  | emitReset => exact absurd ((encodeDone_iff_of_emitReset hp).mpr hs) hd'

/-- The cursor of a transmission is at most at the end of the data (10_state.md R32). -/
theorem PositionInv.cursor_le {len : Nat} {s : State} (h : PositionInv len s) : s.cursor ≤ 8 * len := by
  obtain ⟨hdata, hreset⟩ := h
  cases hp : s.phase with
  | emitData => have hc := hdata hp; omega
  | emitReset => exact Nat.le_of_eq (hreset hp)

/-- From a position of a transmission, `ENCODE`s with a slot each complete it once they are more than the owed bits:
each of them moves the cursor or completes (R179). -/
theorem transmit_completes {len : Nat} (spaces : List Nat) (hpos : ∀ n ∈ spaces, 1 ≤ n) {s : State}
    (hr : s.ready = true) (h : PositionInv len s) (hcount : 8 * len + 1 ≤ s.cursor + spaces.length) :
    ∃ t, transmit len (spaces.map some) s = .next t ∧ t.idle = true ∧ t.outputs.status = Status.completeOnly := by
  induction spaces generalizing s with
  | nil =>
    have hle : s.cursor ≤ 8 * len := h.cursor_le
    rw [List.length_nil] at hcount
    omega
  | cons n spaces ih =>
    obtain ⟨hn, hpos⟩ := List.forall_mem_cons.mp hpos
    rw [List.map_cons]
    cases hd : encodeDone (encodeOperands len n) s with
    | true =>
      obtain ⟨t, ht, hidle, hdone⟩ := execEncode_of_done hr rfl hd
      exact ⟨t, transmit_of_complete ht hdone, hidle, hdone⟩
    | false =>
      obtain ⟨u, hu, -, hcur, -, hout, hcfg, -⟩ := execEncode_summary (encodeOperands len n) hr rfl
      have hlt : s.cursor < u.cursor := hcur ▸ lt_encodeCursor_of_not_done hn hd
      rw [transmit_of_memFull hu (by rw [hout, hd]; rfl)]
      refine ih hpos ((State.ready_congr hcfg).trans hr) (h.encode (p := encodeOperands len n) hu) ?_
      rw [List.length_cons] at hcount
      omega

/-- Without a slot a transmission never gets further (R179). -/
theorem transmit_without_space (len n : Nat) {s : State} (hr : s.ready = true) :
    ∃ t, transmit len (List.replicate (n + 1) (some 0)) s = .next t ∧ t.outputs = ⟨[], 0, Status.memFullOnly⟩ ∧
      t.outMem = s.outMem := by
  induction n generalizing s with
  | zero =>
    obtain ⟨u, hu, hout, hmem, -⟩ := execEncode_of_space_zero (p := encodeOperands len 0) hr rfl rfl
    exact ⟨u, transmit_of_memFull hu (by rw [hout]), hout, hmem⟩
  | succ n ih =>
    obtain ⟨u, hu, hout, hmem, -, -, hcfg⟩ := execEncode_of_space_zero (p := encodeOperands len 0) hr rfl rfl
    obtain ⟨t, ht, hout', hmem'⟩ := ih ((State.ready_congr hcfg).trans hr)
    exact ⟨t, (transmit_of_memFull hu (by rw [hout])).trans ht, hout', hmem'.trans hmem⟩

/-- Settles O10: one word at least, the cursor as the measure of progress, and none of it without a slot. -/
theorem encodeMakesProgress : Obligations.EncodeMakesProgress := by
  refine ⟨fun p s hr hv hs => ?_, fun len spaces s hr hi hpos hcount => ?_, fun len n s hr => ?_⟩
  · obtain ⟨t, ht, -, -, -, hout, -⟩ := execEncode_summary p hr hv
    exact ⟨t, ht, by rw [hout]; exact one_le_length_encodeWords s hs⟩
  · exact transmit_completes spaces hpos hr (.of_idle hi) (hcount.trans (Nat.le_add_left _ _))
  · obtain ⟨t, ht, hout, hmem⟩ := transmit_without_space len n hr
    exact ⟨t, ht, by rw [hout], by rw [hout]; rfl, hmem⟩

/-! ### The stream law -/

/-- Settles O11: up to the data bits the transmission is underway by the capacity offered, beyond them it is over. -/
theorem transmissionStreamLaw : Obligations.TransmissionStreamLaw := by
  intro data moves s hr hi hin
  obtain ⟨t, ht, hunder, hdone⟩ := (Underway.of_idle hi hin).transmit hr moves
  rw [Nat.zero_add] at hunder hdone
  refine ⟨t, ht, ?_, hdone, fun hlt => ?_, fun heq => ?_⟩
  · rcases Nat.lt_or_ge (8 * data.length) (capacity moves) with hlt | hle
    · rw [(hdone hlt).1, List.take_of_length_le (by rw [Config.length_frame]; exact hlt)]
    · exact (hunder hle).outMem
  · have h := hunder (Nat.le_of_lt hlt)
    refine ⟨?_, h.cursor⟩
    cases hp : t.phase with
    | emitData => rfl
    | emitReset => exact absurd (h.phase hp) (Nat.ne_of_lt hlt)
  · exact (hunder (Nat.le_of_eq heq)).cursor.trans heq

/-! ### A constant capacity -/

/-- While the data bits are not exceeded, every `ENCODE` of a transmission fills its buffer and reports `MEM_FULL`, so
the last one did, if there was one (R177). -/
theorem Underway.transmit_fills {s₀ : State} {data : List Byte} (hr : s₀.ready = true) (n j : Nat) {k : Nat} {s : State}
    (h : Underway s₀ data k s) (hle : k + j * n ≤ 8 * data.length) :
    ∃ t, Machine.transmit data.length (List.replicate j (some n)) s = .next t ∧ Underway s₀ data (k + j * n) t ∧
      (t.outputs.status = Status.memFullOnly ∨ j = 0 ∧ t = s) := by
  induction j generalizing k s with
  | zero => exact ⟨s, rfl, by rwa [Nat.zero_mul], .inr ⟨rfl, rfl⟩⟩
  | succ j ih =>
    have hsplit : k + (j + 1) * n = k + n + j * n := by rw [Nat.succ_mul]; omega
    rw [hsplit] at hle ⊢
    obtain ⟨u, hu, hfull, hunder⟩ := h.encode hr (Nat.le_of_add_right_le hle)
    obtain ⟨t, ht, hunder', hlast⟩ := ih hunder hle
    refine ⟨t, (transmit_of_memFull hu hfull).trans ht, hunder', .inl ?_⟩
    rcases hlast with hfull' | ⟨-, rfl⟩
    · exact hfull'
    · exact hfull

/-- The rounded-up quotient is the least number of operations whose capacities reach `m` (R181). -/
theorem roundedUpQuotient_le_iff {m n k : Nat} (hn : 1 ≤ n) : (m + (n - 1)) / n ≤ k ↔ m ≤ k * n := by
  rw [Nat.div_le_iff_le_mul_add_pred hn, Nat.mul_comm, Nat.add_le_add_iff_right]

/-- A constant capacity offers its multiple. -/
theorem capacity_replicate (k n : Nat) : capacity (List.replicate k (some n)) = k * n := by
  simp [capacity]

/-- Settles O12: the quotient of operations offers the frame's length, and any fewer stay within the data bits. -/
theorem transmissionOperationCount : Obligations.TransmissionOperationCount := by
  intro data n k s hn hr hi hin
  have hstart := Underway.of_idle hi hin
  rw [roundedUpQuotient_le_iff hn, ← Nat.not_le, roundedUpQuotient_le_iff hn]
  rcases Nat.lt_or_ge (8 * data.length) (k * n) with hlt | hle
  · obtain ⟨t, ht, -, hdone⟩ := hstart.transmit hr (List.replicate k (some n))
    rw [capacity_replicate, Nat.zero_add] at hdone
    exact ⟨t, ht, fun _ => hdone hlt, fun hfew => absurd hlt hfew⟩
  · obtain ⟨t, ht, hunder, hlast⟩ := hstart.transmit_fills hr n k (by rwa [Nat.zero_add])
    rw [Nat.zero_add] at hunder
    refine ⟨t, ht, fun hall => absurd hle (Nat.not_le.mpr hall), fun _ => ⟨?_, fun hk => ?_⟩⟩
    · rw [hunder.outMem, List.length_append, List.length_take, Config.length_frame,
        Nat.min_eq_left (Nat.le_succ_of_le hle)]
    · exact hlast.resolve_right fun h0 => absurd h0.1 (Nat.one_le_iff_ne_zero.mp hk)

end Sys2Proof.Machine
end

section
/-! PROOFS of the family 60_exceptions.md: the failure path of `ENCODE`, and why a step can be refused. -/

namespace Sys2Proof.Machine

/-! ### The failure path of `ENCODE` -/

/-- The failure condition, cause by cause (60_exceptions.md R201). -/
theorem encodeFails_iff (cfg : Config) (dataValid : Bool) :
    encodeFails cfg dataValid = true ↔ cfg.bitencOk = false ∨ cfg.rstencOk = false ∨ dataValid = false := by
  simp [encodeFails, or_assoc]

/-- Settles O6: the causes are those of the failure path; without a slot a non-failing `ENCODE` reports `MEM_FULL`, and
with one it emits a word. -/
theorem encodeFailureIsSilentNoop : Obligations.EncodeFailureIsSilentNoop := by
  intro p s hl
  rw [← encodeFails_iff]
  refine ⟨execEncode_of_encodeFails hl, fun hf => ?_⟩
  obtain ⟨hr, hv⟩ := (encodeFails_or_ready p hl).resolve_left hf
  obtain h0 | hs : p.space = 0 ∨ 1 ≤ p.space := Nat.eq_zero_or_pos _
  · obtain ⟨t, ht, hout, -⟩ := execEncode_of_space_zero hr hv h0
    exact ⟨t, ht, fun hc => by simp [hout] at hc⟩
  · obtain ⟨hprogress, -⟩ := encodeMakesProgress
    obtain ⟨t, ht, hn⟩ := hprogress p s hr hv hs
    exact ⟨t, ht, fun _ => hn⟩

/-! ### Why a step is refused -/

/-- A presented command has no instruction only where it is a packed word with non-zero padding (30_encoding.md R89). -/
theorem Command.padding_of_decode_error {c : Command} {e : DecodeError} (h : c.decode = .error e) :
    ∃ w, c = .word w ∧ w.extractLsb' 3 5 ≠ 0#5 := by
  cases c with
  | ports cmd p => cases h
  | word w => exact ⟨w, rfl, fun hpad => nomatch (decodeWord_of_padding_eq hpad).symm.trans h⟩

/-- In a legal configuration a step without a command, or with a hardware reset, answers; so a refused step runs a
command (60_exceptions.md R205, 43_transmission_state_machine.md R166). -/
theorem command_of_step_refused {s : State} {r : Refusal} (hl : s.cfg.legal = true) (h : step s = .refused r) :
    ∃ op rest, s.pending = op :: rest ∧ op.hwReset = false := by
  cases hp : s.pending with
  | nil => cases (stepWithoutCommandIsNop s hl hp).symm.trans h
  | cons op rest =>
    refine ⟨op, rest, rfl, ?_⟩
    cases hr : op.hwReset with
    | false => rfl
    | true =>
      have hls : (s.sample op rest).cfg.legal = true := by rwa [State.sample_cfg]
      simp [step, hp, runOp, hr, requireLegal_of_legal hls] at h

/-- In a legal configuration a command that reached `exec` is refused only as the reserved one. -/
theorem exec_command_refused_of_legal {i : Instr} (hc : i.isCommand = true) {s : State} {r : Refusal}
    (hl : s.cfg.legal = true) (h : exec i s = .refused r) : ∃ p, i = .reservedCmd3 p ∧ r = .reservedCommand :=
  (exec_command_refused hc h).resolve_right fun ⟨hl', _⟩ => Bool.false_ne_true (hl'.symm.trans hl)

/-- Settles O45: the three commands answer, there is no fault to end on, and a refusal comes from the decoder, from the
widths of the ports, or from the reserved command. -/
theorem commandsAlwaysComplete : Obligations.CommandsAlwaysComplete := by
  refine ⟨fun p s hl => ⟨⟨_, exec_nop p hl⟩, execEncode_next p hl, ⟨_, exec_reset p hl⟩⟩, fun _ => nofun,
    fun s r hl h => ?_⟩
  obtain ⟨op, rest, hp, hr⟩ := command_of_step_refused hl h
  refine ⟨op, rest, hp, hr, ?_⟩
  cases hd : op.command.decode with
  | error e =>
    cases e
    cases (step_of_decode_error hp hr hd).symm.trans h
    exact .inl ⟨rfl, Command.padding_of_decode_error hd⟩
  | ok i =>
    rw [step_of_decode hp hr hd] at h
    cases hw : i.wellFormed s.cfg with
    | false =>
      rw [hw, if_neg Bool.false_ne_true] at h
      cases h
      exact .inr (.inl ⟨rfl, i, rfl, hw⟩)
    | true =>
      rw [hw, if_pos rfl] at h
      have hls : (s.sample op rest).cfg.legal = true := by rwa [State.sample_cfg]
      obtain ⟨p, rfl, rfl⟩ := exec_command_refused_of_legal (Command.isCommand_of_decode hd) hls h
      exact .inr (.inr ⟨rfl, p, rfl⟩)

end Sys2Proof.Machine
end

section
/-! PROOFS of the family 70_reset_and_hazards.md: hardware reset, what brings the block to `IDLE`, the dark frame, a
length shrunk below the cursor, and that a failing `ENCODE` leaves no trace. -/

namespace Sys2Proof

/-! ### The frame of zero bytes -/

/-- Every bit of a buffer of zero bytes is 0. -/
theorem bufferBit_replicate_zero (n c : Nat) : bufferBit (List.replicate n 0#8) c = false := by
  have hbyte : (List.replicate n 0#8).getD (c / 8) 0#8 = 0#8 := by
    rw [List.getD_eq_getElem?_getD, List.getElem?_replicate]
    split <;> rfl
  rw [bufferBit, hbyte, BitVec.getLsbD_zero]

/-- The frame of `n` zero bytes is `8 * n` times `S0`, then `SR`. -/
theorem Config.frame_replicate_zero (cfg : Config) (n : Nat) :
    cfg.frame (List.replicate n 0#8) = List.replicate (8 * n) (cfg.romWord .s0) ++ [cfg.romWord .sr] := by
  simp only [Config.frame, bufferBit_replicate_zero, RomIndex.ofBit, List.length_replicate, List.map_const',
    List.length_range]

end Sys2Proof

namespace Sys2Proof.Machine

/-! ### Hardware reset -/

/-- A step with `hw_reset` resets the sampled state and does not look at the command (60_exceptions.md R205). -/
theorem step_of_hwReset {s : State} {op : HostOp} {rest : List HostOp} (hl : s.cfg.legal = true)
    (hp : s.pending = op :: rest) (hr : op.hwReset = true) : step s = .next (s.sample op rest).hwReset := by
  have hls : (s.sample op rest).cfg.legal = true := by rwa [State.sample_cfg]
  simp only [step, hp, runOp, hr, if_true, requireLegal_of_legal hls]

/-- Settles O2: the sampled state, reset. -/
theorem hwResetOverridesCommand : Obligations.HwResetOverridesCommand := by
  intro s op rest hl hp hr
  rw [step_of_hwReset hl hp hr, State.sample_eq]
  rfl

/-! ### What brings the block to `IDLE` -/

/-- Sampling the host's inputs leaves `PHASE` and `CURSOR`. -/
@[simp] theorem State.idle_sample (s : State) (op : HostOp) (rest : List HostOp) :
    (s.sample op rest).idle = s.idle := by
  rw [State.sample_eq]
  rfl

/-- A non-failing `ENCODE` that completes the transmission leaves `IDLE`, with `COMPLETE` and its words on the ports
(43_transmission_state_machine.md R172). -/
theorem execEncode_outputs_of_done {p : Operands} {s : State} (hr : s.ready = true) (hv : p.dataValid = true)
    (hd : encodeDone p s = true) : ∃ t, execEncode p s = .next t ∧ t.idle = true ∧
      t.outputs = ⟨encodeWords p s, (encodeWords p s).length, Status.completeOnly⟩ := by
  obtain ⟨t, ht, hidle, -⟩ := execEncode_of_done hr hv hd
  obtain ⟨t', ht', -, -, -, hout, -⟩ := execEncode_summary p hr hv
  cases ht'.symm.trans ht
  exact ⟨t, ht, hidle, by rw [hout, if_pos hd]⟩

/-- A non-failing `ENCODE` that does not complete the transmission only ends in `IDLE` where it began there: it never
moves the cursor back nor leaves `EMIT_RESET` (R182). -/
theorem idle_of_encode_not_done {p : Operands} {s : State} (hd : encodeDone p s = false)
    (hph : encodePhase p s = .emitData) (hcur : encodeCursor p s = 0) : s.idle = true := by
  simp only [encodePhase, encodeCursor, hd, Bool.false_eq_true, if_false] at hph hcur
  cases hp : s.phase with
  | emitData =>
    simp only [hp] at hcur
    exact s.idle_iff.mpr ⟨hp, Nat.eq_zero_of_add_eq_zero_right hcur⟩
  | emitReset =>
    simp only [hp] at hph
    cases hph

/-- An `ENCODE` that emits the reset symbol leaves `IDLE` (70_reset_and_hazards.md R232). -/
theorem execEncode_idle_of_sr_mem {p : Operands} {s t : State} (h : execEncode p s = .next t)
    (hsr : s.cfg.romWord .sr ∈ t.outputs.out) : t.idle = true := by
  obtain ⟨hl, -⟩ := execEncode_cases h
  rcases encodeFails_or_ready p hl with hf | ⟨hr, hv⟩
  · cases (execEncode_of_encodeFails hl hf).symm.trans h
    exact absurd hsr List.not_mem_nil
  · obtain ⟨t', ht', -, -, -, hout, -⟩ := execEncode_summary p hr hv
    cases ht'.symm.trans h
    rw [hout, sr_mem_encodeWords_iff hl] at hsr
    obtain ⟨t', ht', hidle, -⟩ := execEncode_of_done hr hv hsr
    cases ht'.symm.trans h
    exact hidle

/-- An `ENCODE` that brings the block to `IDLE` from elsewhere emits the reset symbol (R232). -/
theorem execEncode_sr_mem_of_idle {p : Operands} {s t : State} (h : execEncode p s = .next t)
    (hs : s.idle = false) (ht : t.idle = true) : s.cfg.romWord .sr ∈ t.outputs.out := by
  obtain ⟨hl, -⟩ := execEncode_cases h
  rcases encodeFails_or_ready p hl with hf | ⟨hr, hv⟩
  · cases (execEncode_of_encodeFails hl hf).symm.trans h
    exact absurd (hs.symm.trans ht) Bool.false_ne_true
  · obtain ⟨t', ht', hph, hcur, -, hout, -⟩ := execEncode_summary p hr hv
    cases ht'.symm.trans h
    rw [hout, sr_mem_encodeWords_iff hl]
    obtain ⟨hph', hcur'⟩ := t.idle_iff.mp ht
    by_contra hd
    have hidle := idle_of_encode_not_done (Bool.eq_false_iff.mpr hd) (hph ▸ hph') (hcur ▸ hcur')
    exact Bool.false_ne_true (hs.symm.trans hidle)

/-- Settles O50: of the ways a step answers, a `NOP` keeps `PHASE` and `CURSOR`, and an `ENCODE` comes to `IDLE` with
the reset symbol; the others are the two resets. -/
theorem idleReachedByThreeEvents : Obligations.IdleReachedByThreeEvents := by
  refine ⟨fun _ => ⟨rfl, rfl⟩, fun p s t h => ?_, fun p s t h hsr => t.idle_iff.mp (execEncode_idle_of_sr_mem h hsr),
    fun s t h hs ht => ?_⟩
  · cases eq_hwReset_of_exec_reset h
    exact ⟨rfl, rfl⟩
  · rcases step_next_cases h with ⟨-, h⟩ | ⟨op, rest, hp, hr, -⟩ | ⟨op, rest, i, hp, -, hd, hc, -, h⟩
    · obtain ⟨-, rfl⟩ := eq_of_requireLegal_next h
      exact absurd (hs.symm.trans ht) Bool.false_ne_true
    · exact ⟨op, rest, hp, .inl hr⟩
    · refine ⟨op, rest, hp, .inr ?_⟩
      have hs' : (s.sample op rest).idle = false := by rwa [State.idle_sample]
      obtain ⟨-, ⟨p, -, rfl⟩ | ⟨p, rfl, -⟩ | ⟨p, rfl, h⟩⟩ := exec_command_next hc h
      · exact absurd (hs'.symm.trans ht) Bool.false_ne_true
      · exact .inl ⟨p, hd⟩
      · have hsr := execEncode_sr_mem_of_idle h hs' ht
        rw [State.sample_cfg] at hsr
        exact .inr ⟨⟨p, hd⟩, hsr⟩

/-! ### The dark frame -/

/-- From `IDLE` an `ENCODE` with a slot for every word of the frame emits the frame (R180). -/
theorem encodeWords_eq_frame {s : State} {data : List Byte} {space : Nat} (hi : s.idle = true)
    (hin : s.inMem = Memory.ofBytes data) (hspace : 8 * data.length < space) :
    encodeWords (encodeOperands data.length space) s = s.cfg.frame data := by
  rw [(Underway.of_idle hi hin).encodeWords_eq, List.drop_zero,
    List.take_of_length_le (by rw [Config.length_frame]; exact hspace)]

/-- Settles O32: the one `ENCODE` emits the whole frame, which is that of three zero bytes. -/
theorem darkFrameIsTwentyFourZeros : Obligations.DarkFrameIsTwentyFourZeros := by
  intro s space hr hi hin hspace
  have hd : encodeDone (encodeOperands darkBytes.length space) s = true :=
    ((Underway.of_idle hi hin).encodeDone_iff space).mpr (by rw [Nat.zero_add]; exact hspace)
  obtain ⟨t, ht, hidle, hout⟩ := execEncode_outputs_of_done hr rfl hd
  have hframe : s.cfg.frame darkBytes = List.replicate 24 (s.cfg.romWord .s0) ++ [s.cfg.romWord .sr] :=
    s.cfg.frame_replicate_zero 3
  rw [encodeWords_eq_frame hi hin hspace, Config.length_frame, hframe] at hout
  exact ⟨t, ht, hidle, hout⟩

/-! ### A length shrunk below the cursor -/

/-- With the cursor at or beyond the length no bit is owed, and `BITENC` produces nothing (41_bit_encoder.md R133). -/
theorem bitencCount_of_le_cursor {len : Nat} (space : Nat) {s : State} (h : 8 * len ≤ s.cursor) :
    bitencCount len space s = 0 := by
  rw [bitencCount, Nat.sub_eq_zero_of_le h, Nat.min_zero]

/-- Settles O19: no bit is owed, so the `ENCODE` completes where it has a slot, and else only leaves the data phase. -/
theorem shrunkLengthEndsDataPhase : Obligations.ShrunkLengthEndsDataPhase := by
  intro p s hr hv hp hc
  have hcount := bitencCount_of_le_cursor p.space (Nat.le_of_lt hc)
  have howed : 8 * p.len - s.cursor = 0 := Nat.sub_eq_zero_of_le (Nat.le_of_lt hc)
  refine ⟨⟨_, exec_bitenc p.len p.space (s.ready_iff.mp hr).1, ?_, ?_, ?_, ?_⟩, ?_⟩
  · rw [bitenc_outMem, hcount, State.nextWords_zero, List.append_nil]
  · rw [bitenc_cursor, hcount, Nat.add_zero]
  · rw [bitenc_consumed, hcount, Nat.add_zero, decide_eq_true_eq]
    exact Nat.le_of_lt hc
  · rw [bitenc_bitExhausted, hcount, Nat.add_zero, decide_eq_false_iff_not]
    exact Nat.lt_asymm hc
  · obtain h0 | hs : p.space = 0 ∨ 1 ≤ p.space := Nat.eq_zero_or_pos _
    · obtain ⟨t, ht, hout, -, hcur, hph, -⟩ := execEncode_of_space_zero hr hv h0
      obtain ⟨-, -, hreset, -⟩ := encode_row_data_done hp (h0.trans howed.symm)
      exact ⟨t, ht, fun hs => absurd h0 (Nat.one_le_iff_ne_zero.mp hs), fun _ => ⟨hout, hph.trans hreset, hcur⟩⟩
    · obtain ⟨hd, hw, -⟩ := encode_row_slot_left hp (howed.trans_lt hs)
      obtain ⟨t, ht, hidle, hout⟩ := execEncode_outputs_of_done hr hv hd
      rw [hw, howed, State.nextWords_zero] at hout
      exact ⟨t, ht, fun _ => ⟨hout, hidle⟩, fun h0 => absurd h0 (Nat.one_le_iff_ne_zero.mp hs)⟩

/-! ### An `ENCODE` does not read the ports -/

/-- The loop of `BITENC` carries the status along. -/
theorem bitencLoop_respond (len space : Nat) (s : State) (f : Status) :
    bitencLoop len space (s.respond f) = (bitencLoop len space s).respond f := by
  induction space generalizing s with
  | zero => rfl
  | succ n ih =>
    have hturn : (s.respond f).emitBit = s.emitBit.respond f := rfl
    rw [bitencLoop, bitencLoop, hturn, ih, State.respond_cursor]
    split <;> rfl

/-- So does `BITENC` (41_bit_encoder.md R131). -/
theorem bitenc_respond (len space : Nat) (s : State) (f : Status) :
    bitenc len space (s.respond f) = (bitenc len space s).respond f := by
  simp only [bitenc, bitencLoop_respond]
  rfl

/-- And `RSTENC` (42_reset_latch_encoder.md R151). -/
theorem rstenc_respond (space : Nat) (s : State) (f : Status) :
    rstenc space (s.respond f) = (rstenc space s).respond f := by
  unfold rstenc
  split <;> rfl

/-- The reset phase answers alike whatever the status was, because it drives its own at the end (R172, R173). -/
theorem resetPhase_respond (space : Nat) (s : State) (f : Status) :
    resetPhase space (s.respond f) = resetPhase space s := by
  rw [resetPhase_eq, resetPhase_eq, rstenc_respond]
  rfl

/-- So does what follows `BITENC` (R170, R171). -/
theorem afterBitenc_respond (space : Nat) (s : State) (f : Status) :
    afterBitenc space (s.respond f) = afterBitenc space s := by
  cases he : s.wires.bitExhausted with
  | true => rw [afterBitenc_of_exhausted space he, afterBitenc_of_exhausted (s := s.respond f) space he]; rfl
  | false =>
    cases hc : s.wires.consumed with
    | true =>
      rw [afterBitenc_of_consumed space he hc, afterBitenc_of_consumed (s := s.respond f) space he hc]
      exact resetPhase_respond space { s with phase := .emitReset } f
    | false => rw [afterBitenc_of_neither space he hc, afterBitenc_of_neither (s := s.respond f) space he hc]

/-- So does the data phase (R167). -/
theorem dataPhase_respond (len space : Nat) (s : State) (f : Status) :
    dataPhase len space (s.respond f) = dataPhase len space s := by
  simp only [dataPhase, bitenc_respond]
  exact afterBitenc_respond _ _ f

/-- After an operation that drove the ports and nothing else an `ENCODE` answers as it would have without it. -/
theorem execEncode_returnNothing (p : Operands) (s : State) (f : Status) :
    execEncode p (s.returnNothing f) = execEncode p s := by
  have hclear : (s.returnNothing f).clearOut = s.clearOut.respond f := rfl
  have hfail : (s.returnNothing f).failurePath = s.failurePath := rfl
  simp only [execEncode, requireLegal, hclear, hfail, dataPhase_respond, resetPhase_respond, State.returnNothing_cfg,
    State.returnNothing_phase]

/-- Settles O18: a failing `ENCODE` drives the ports and nothing else. -/
theorem failingEncodeLeavesNoTrace : Obligations.FailingEncodeLeavesNoTrace := by
  intro p q s hl hv
  have hf : encodeFails s.cfg p.dataValid = true := (encodeFails_iff _ _).mpr (.inr (.inr hv))
  exact ⟨s.failurePath, execEncode_of_encodeFails hl hf, rfl, rfl, rfl, rfl, execEncode_returnNothing q s _⟩

end Sys2Proof.Machine
end
